-- ==== Sys2Proof/Word.lean ====
section
/-! DEFINITION. The words of the hardware: a byte, a 32-bit word, a 192-bit command descriptor, and the two
width changes of the spec's notation (spec/00_scope.md, section 5). -/

namespace Sys2Proof

/-- A byte of the data space: "A byte is 8 bits" (R40). -/
abbrev Byte := BitVec 8

/-- A 32-bit word: the width of an address, of a length, and of the registers R and RES
(R6: `ADDR_W`, `LEN_W`, `REG_W`). -/
abbrev Word := BitVec 32

/-- A command descriptor: 192 bits, "presented whole on the command interface" (R60). -/
abbrev Desc := BitVec 192

/-- `trunc_n(v)`: the low `n` bits of a word, as an `n`-bit value. -/
abbrev trunc (n : Nat) (v : Word) : BitVec n := v.setWidth n

/-- `zext_32(v)`: a value of at most 32 bits, widened to a word with zeros on top. -/
abbrev zext {n : Nat} (v : BitVec n) : Word := v.setWidth 32

end Sys2Proof
end

