-- ==== Sys2Proof/Config.lean ====
section
/-! DEFINITION. What the spec fixes for every implementation (R6), and the values it leaves open.
The open values are constants without a body: nothing can be proved about which value they are. -/

namespace Sys2Proof.Config

/-- `ADDR_W`: the data space has `2^32` byte addresses (R6, R40). -/
abbrev addressCount : Nat := 2 ^ 32

/-- What a RESET leaves in `CMD`: unspecified (R35, R160, U5), so a free value. The argument is the number of
RESETs before this one (`State.draws`), so that two RESETs need not leave the same value. -/
opaque resetCmd : Nat → Desc

/-- What a RESET leaves in `R`: unspecified (R35, R160, U5), a free value. -/
opaque resetR : Nat → Word

/-- What a RESET leaves in `idx`: unspecified (R35, R160, U5), a free value. -/
opaque resetIdx : Nat → Word

/-- What a RESET leaves in `RES`: unspecified (R35, R160, U5), a free value. -/
opaque resetRes : Nat → Word

end Sys2Proof.Config
end

