-- ==== Sys2Proof/Syntax.lean ====
section
/-! DEFINITION. The nine commands of the engine (spec/30_encoding.md R66, spec/opcode_table.json), the operand
words they carry, the verdicts of the decoder (R72), and the call notation of the spec's text (R73, R74). -/

namespace Sys2Proof

/-- The operation width W: 8, 16 or 32, and no other ("A model's width type should have exactly three values", U6). -/
inductive Width where
  | w8
  | w16
  | w32
  deriving DecidableEq, Repr

/-- The number of bits of a width (R27, R63). -/
def Width.bits : Width → Nat
  | .w8 => 8
  | .w16 => 16
  | .w32 => 32

/-- The three families of commands (R64). -/
inductive Family where
  | checksum
  | reflect
  | crc
  deriving DecidableEq, Repr

/-- Words 1 to 5 of a descriptor, as the host wrote them (R61). A command carries all five, those it does not
use too ("any 32-bit value is legal there and no rule reads it", R70): ACCEPT latches the descriptor whole. -/
structure Operands where
  /-- Word 1: `polynomial` (CRC). -/
  poly : Word
  /-- Word 2: `initial_value` (CRC). -/
  init : Word
  /-- Word 3: `final_xor` (CRC). -/
  xorout : Word
  /-- Word 4: the address of byte 0 (CHECKSUM, CRC), or the value to reflect (REFLECT). -/
  opa : Word
  /-- Word 5: the number of bytes (CHECKSUM, CRC). -/
  len : Word
  deriving DecidableEq, Repr

/-- The commands, one constructor per row of spec/opcode_table.json, in the table's order. A CRC command also
carries the two reflection Booleans of its `CTRL` word (R65). -/
inductive Instr where
  | checksum8 (o : Operands)
  | checksum16 (o : Operands)
  | checksum32 (o : Operands)
  | reflectBits8 (o : Operands)
  | reflectBits16 (o : Operands)
  | reflectBits32 (o : Operands)
  | crc8 (refin refout : Bool) (o : Operands)
  | crc16 (refin refout : Bool) (o : Operands)
  | crc32 (refin refout : Bool) (o : Operands)
  deriving DecidableEq, Repr

/-- The verdict of the decoder on a descriptor: "`Reserved`", "`OutOfRange`", or the command (R72). -/
inductive Decoded where
  | reserved
  | outOfRange
  | command (i : Instr)
  deriving DecidableEq, Repr

/-- One row of R66's table: the `CTRL` match and mask that select a command, and the command it stands for, given
the bits REFIN and REFOUT of `CTRL` and the five operand words. -/
structure OpcodeRow where
  value : Word
  mask : Word
  command : Bool → Bool → Operands → Instr

/-- A configuration record as the host writes it in a call (R73, R74). -/
structure CrcConfig where
  polynomial : Word
  initialValue : Word
  reflectInput : Bool
  reflectOutput : Bool
  finalXor : Word
  deriving DecidableEq, Repr

/-- The call notation of R73: `checksumW(data, length)`, `reflect_bits(value, bit_width)` and
`crcW(config, data, length)`, where `data` is a byte address. -/
inductive Call where
  | checksum (w : Width) (data length : Word)
  | reflectBits (value : Word) (bitWidth : Width)
  | crc (w : Width) (config : CrcConfig) (data length : Word)
  deriving DecidableEq, Repr

/-- The five operand words of a command. -/
def Instr.operands : Instr → Operands
  | .checksum8 o => o
  | .checksum16 o => o
  | .checksum32 o => o
  | .reflectBits8 o => o
  | .reflectBits16 o => o
  | .reflectBits32 o => o
  | .crc8 _ _ o => o
  | .crc16 _ _ o => o
  | .crc32 _ _ o => o

/-- The family of a command (R66). -/
def Instr.family : Instr → Family
  | .checksum8 _ => .checksum
  | .checksum16 _ => .checksum
  | .checksum32 _ => .checksum
  | .reflectBits8 _ => .reflect
  | .reflectBits16 _ => .reflect
  | .reflectBits32 _ => .reflect
  | .crc8 _ _ _ => .crc
  | .crc16 _ _ _ => .crc
  | .crc32 _ _ _ => .crc

/-- The width of a command (R66). -/
def Instr.width : Instr → Width
  | .checksum8 _ => .w8
  | .checksum16 _ => .w16
  | .checksum32 _ => .w32
  | .reflectBits8 _ => .w8
  | .reflectBits16 _ => .w16
  | .reflectBits32 _ => .w32
  | .crc8 _ _ _ => .w8
  | .crc16 _ _ _ => .w16
  | .crc32 _ _ _ => .w32

end Sys2Proof
end

