-- ==== Sys2Proof/WellFormed.lean ====
section
/-! DEFINITION. Which commands the host may offer: the one condition that the opcode table does not express,
R45's range condition. -/

namespace Sys2Proof

/-- The bytes `OPA` to `OPA + LEN - 1` lie in the data space: `OPA + LEN <= 2^32`, the sum taken exactly (R45).
`OPA + LEN = 2^32` is in range (U3). -/
def Operands.inRange (o : Operands) : Bool :=
  decide (o.opa.toNat + o.len.toNat ≤ Config.addressCount)

/-- A checksum and a CRC need their buffer in range; a reflection reads no buffer and ignores `LEN` (R45, R69 (e)). -/
def Instr.wellFormed (i : Instr) : Bool :=
  match i.family with
  | .checksum => i.operands.inRange
  | .reflect => true
  | .crc => i.operands.inRange

end Sys2Proof
end

