-- ==== Sys2Proof/Decode.lean ====
section
/-! DEFINITION. The decoder, total on 192-bit descriptors and rejecting by the spec's two verdicts (R72), and the
encoder, written from the same tables (spec/30_encoding.md R61 to R70). -/

namespace Sys2Proof

/-! ### The fields of a descriptor (R61, R62) -/

/-- Word `j` of a descriptor is `DESC[32j+31 : 32j]` (R61). -/
def descWord (d : Desc) (j : Nat) : Word := d.extractLsb' (32 * j) 32

/-- Word 0, `CTRL` (R61). -/
def ctrlOf (d : Desc) : Word := descWord d 0

/-- Words 1 to 5: `POLY`, `INIT`, `XOROUT`, `OPA`, `LEN` (R61). -/
def operandsOf (d : Desc) : Operands :=
  { poly := descWord d 1, init := descWord d 2, xorout := descWord d 3, opa := descWord d 4, len := descWord d 5 }

/-- `OP = CTRL[1:0]` (R62). -/
def opField (c : Word) : BitVec 2 := c.extractLsb' 0 2

/-- `WSEL = CTRL[3:2]` (R62). -/
def wselField (c : Word) : BitVec 2 := c.extractLsb' 2 2

/-- `REFIN = CTRL[4]` (R62). -/
def refinField (c : Word) : Bool := c.getLsbD 4

/-- `REFOUT = CTRL[5]` (R62). -/
def refoutField (c : Word) : Bool := c.getLsbD 5

/-- `CTRL[31:6]`, "reserved, which must be zero" (R62). -/
def reservedField (c : Word) : BitVec 26 := c.extractLsb' 6 26

/-! ### The verdicts -/

/-- A descriptor is reserved when (a) `CTRL[31:6] != 0`, (b) `OP = 0`, (c) `WSEL = 3`, or (d) `OP` is 1 or 2 and
`CTRL[5:4] != 0` (R69). -/
def isReserved (c : Word) : Bool :=
  reservedField c != 0 || opField c == 0 || wselField c == 3 ||
    ((opField c == 1 || opField c == 2) && (refinField c || refoutField c))

/-- The nine rows of R66's table, in its order. -/
def opcodeRows : List OpcodeRow :=
  [ { value := 0x00000001, mask := 0xFFFFFFFF, command := fun _ _ o => .checksum8 o },
    { value := 0x00000005, mask := 0xFFFFFFFF, command := fun _ _ o => .checksum16 o },
    { value := 0x00000009, mask := 0xFFFFFFFF, command := fun _ _ o => .checksum32 o },
    { value := 0x00000002, mask := 0xFFFFFFFF, command := fun _ _ o => .reflectBits8 o },
    { value := 0x00000006, mask := 0xFFFFFFFF, command := fun _ _ o => .reflectBits16 o },
    { value := 0x0000000A, mask := 0xFFFFFFFF, command := fun _ _ o => .reflectBits32 o },
    { value := 0x00000003, mask := 0xFFFFFFCF, command := fun refin refout o => .crc8 refin refout o },
    { value := 0x00000007, mask := 0xFFFFFFCF, command := fun refin refout o => .crc16 refin refout o },
    { value := 0x0000000B, mask := 0xFFFFFFCF, command := fun refin refout o => .crc32 refin refout o } ]

/-- "A descriptor selects a row when `(CTRL & mask) = match`" (R66). -/
def selects (c : Word) (row : OpcodeRow) : Bool := c &&& row.mask == row.value

/-- The row a `CTRL` word selects, if any. -/
def rowOf (c : Word) : Option OpcodeRow := opcodeRows.find? (selects c)

/-- The command that the row selected by a `CTRL` word stands for, with operand words `o`. -/
def commandOf (c : Word) (o : Operands) : Option Instr :=
  (rowOf c).map fun row => row.command (refinField c) (refoutField c) o

/-- `Decode(DESC)`: `Reserved` if R69 (a) to (d) holds, otherwise `OutOfRange` if R69 (e) holds, otherwise the
command of the one row that `CTRL` matches (R72). -/
def decode (d : Desc) : Decoded :=
  if isReserved (ctrlOf d) then .reserved
  else
    match commandOf (ctrlOf d) (operandsOf d) with
    | none => .reserved
    | some i => if i.wellFormed then .command i else .outOfRange

/-! ### The encoder -/

/-- `OP` of a family, "numbered in EDS's order": 1 CHECKSUM, 2 REFLECT, 3 CRC (R64). -/
def opCode : Family → BitVec 2
  | .checksum => 1
  | .reflect => 2
  | .crc => 3

/-- `WSEL` of a width: "`0` is 8, `1` is 16, `2` is 32" (R63). -/
def wselCode : Width → BitVec 2
  | .w8 => 0
  | .w16 => 1
  | .w32 => 2

/-- The `CTRL` word as R62 draws it, the reserved bits zero. -/
def mkCtrl (f : Family) (w : Width) (refin refout : Bool) : Word :=
  0#26 ++ BitVec.ofBool refout ++ BitVec.ofBool refin ++ wselCode w ++ opCode f

/-- A word placed at bits `32j+31 : 32j` of a descriptor, zeros elsewhere (R61). -/
def placeWord (j : Nat) (v : Word) : Desc := v.setWidth 192 <<< (32 * j)

/-- The six words of a descriptor: CTRL, POLY, INIT, XOROUT, OPA, LEN, from word 0 up (R61). -/
def mkDesc (ctrl : Word) (o : Operands) : Desc :=
  placeWord 0 ctrl ||| placeWord 1 o.poly ||| placeWord 2 o.init ||| placeWord 3 o.xorout ||| placeWord 4 o.opa |||
    placeWord 5 o.len

/-- REFIN of a command; a checksum and a reflection have the bit zero (R65). -/
def Instr.refin : Instr → Bool
  | .crc8 refin _ _ => refin
  | .crc16 refin _ _ => refin
  | .crc32 refin _ _ => refin
  | .checksum8 _ => false
  | .checksum16 _ => false
  | .checksum32 _ => false
  | .reflectBits8 _ => false
  | .reflectBits16 _ => false
  | .reflectBits32 _ => false

/-- REFOUT of a command; a checksum and a reflection have the bit zero (R65). -/
def Instr.refout : Instr → Bool
  | .crc8 _ refout _ => refout
  | .crc16 _ refout _ => refout
  | .crc32 _ refout _ => refout
  | .checksum8 _ => false
  | .checksum16 _ => false
  | .checksum32 _ => false
  | .reflectBits8 _ => false
  | .reflectBits16 _ => false
  | .reflectBits32 _ => false

/-- The descriptor of a command (R61 to R66). -/
def encode (i : Instr) : Desc :=
  mkDesc (mkCtrl i.family i.width i.refin i.refout) i.operands

/-! ### The opcode table's numbering -/

/-- The instruction the decoder reads from a descriptor whose bits are `w`, bit 0 the least significant bit of word 0
(which is how spec/opcode_table.json numbers `DESC`); bits at and above `nbits` are 0. -/
def decodeTableWord (nbits w : Nat) : Option Instr :=
  match decode (BitVec.ofNat 192 (w % 2 ^ nbits)) with
  | .command i => some i
  | .reserved => none
  | .outOfRange => none

end Sys2Proof
end

