-- ==== Sys2Proof/Machine/Operands.lean ====
section
/-! DEFINITION. How the steps take a command's operands (spec/30_encoding.md R67, spec/10_state.md R27,
spec/20_memory.md R44). There are no other operand forms: nothing is scaled or sign-extended. -/

namespace Sys2Proof.Machine

/-- `n_eff`: `LEN` for a CHECKSUM or a CRC, 0 for a REFLECT, which "reads no buffer" (R27). -/
def effLen (i : Instr) : Nat :=
  match i.family with
  | .checksum => i.operands.len.toNat
  | .reflect => 0
  | .crc => i.operands.len.toNat

/-- The one addressing mode, base plus index: `OPA + idx`, "computed exactly (no wrap)" (R44, R85). -/
def byteAddress (i : Instr) (idx : Nat) : Nat := i.operands.opa.toNat + idx

/-- `poly`, the low `n` bits of the word POLY (R67). -/
def polyOperand (n : Nat) (o : Operands) : BitVec n := trunc n o.poly

/-- `init`, the low `n` bits of the word INIT (R67). -/
def initOperand (n : Nat) (o : Operands) : BitVec n := trunc n o.init

/-- `xorout`, the low `n` bits of the word XOROUT (R67). -/
def xoroutOperand (n : Nat) (o : Operands) : BitVec n := trunc n o.xorout

/-- The value a REFLECT command reflects, the low `n` bits of OPA: "bits above `bit_width` in the input are ignored" (R67). -/
def valueOperand (n : Nat) (o : Operands) : BitVec n := trunc n o.opa

end Sys2Proof.Machine
end

