-- ==== Sys2Proof/Machine/State.lean ====
section
/-! DEFINITION. The state of one engine (spec/10_state.md R20), of the data space it reads, and of the host and the
environment that act on it; why a step can stop; and the state after reset. -/

namespace Sys2Proof.Machine

/-- Where the sequencer stands (R23): no command in progress, a command in progress, a result waiting to be taken. -/
inductive Phase where
  | idle
  | run
  | done
  deriving DecidableEq, Repr

/-- What happens next: an event of the environment, or a turn in which the engine, alone or jointly with the host,
takes the one step that its phase enables. The list of them fixes one interleaving (assumption log, entry 6). -/
inductive EnvEvent where
  /-- The step enabled in the engine's phase happens. -/
  | turn
  /-- RESET (R160). -/
  | reset
  /-- The host, or anything else, makes address `a` hold byte `b` and `Readable` (R40, R43, R164 (1)). -/
  | store (a : Word) (b : Byte)
  /-- Address `a` is no longer backed by memory the host has provided (R43). -/
  | withdraw (a : Word)
  deriving DecidableEq, Repr

/-- The data space: the bytes of the addresses that are `Readable` (R40, R43), in rising order of address, each address
once. An unlisted address is not `Readable` and has no value. -/
abbrev Memory := List Host.Cell

/-- The whole state. The first five fields are R20's elements "and no other" of the engine; the rest is the data space,
the host, the environment, and records of what crossed the engine's interfaces. -/
structure State where
  /-- Where the sequencer stands (R23). -/
  phase : Phase
  /-- `CMD`, the latched descriptor (R26). -/
  cmd : Desc
  /-- `R`, the running register, of which the low W bits are used (R21, R31). -/
  r : Word
  /-- `idx`, the index of the next byte of the buffer (R24). -/
  idx : Word
  /-- `RES`, the result of the last finished command (R28). -/
  res : Word
  /-- The data space: `Mem` on the addresses that are `Readable` (R33, R40, R43). -/
  mem : Memory
  /-- The descriptors that the host offers on the command interface, first one first (R81 (a)). They are the host's, no
  queue of the engine: "There is no queue of commands" (R80). -/
  offers : List Desc
  /-- How many results the host is ready to take on the result interface (R81 (c), R88). -/
  takes : Nat
  /-- What happens next, first event first; when nothing is listed, the engine has the turn (R92). -/
  env : List EnvEvent
  /-- The values that the host has received by TAKE, in order (R88, R176). -/
  taken : List Word
  /-- The addresses that the engine has read on the memory read interface, in order (R81 (b), R44). -/
  reads : List Nat
  /-- How many RESETs have drawn free values (the model's own counter: entry 3 of the assumption log). -/
  draws : Nat
  deriving DecidableEq, Repr

/-- Why the machine stops although the spec lets a step be attempted. -/
inductive Fault where
  /-- Raised by BYTE when `Readable(OPA + idx)` does not hold: "no defined outcome: not a value, not a reported error,
  not a defined halt" (R43, U1). Safe: nothing is claimed of what follows. -/
  | unreadableByte (addr : Nat)
  /-- Raised in phase RUN when neither `idx < n_eff` nor `idx = n_eff` holds, so that the spec enables no step (R84, R86).
  No reachable state is such a state (R25, R87). Safe. -/
  | noStepEnabled
  deriving DecidableEq, Repr

/-- Why a descriptor has no meaning. -/
inductive Refusal where
  /-- Raised by `exec` for an instruction without a meaning in this model; no arm raises it now. Safe. -/
  | notModelled (mnemonic : String)
  /-- Raised when a descriptor that R69 (a) to (d) calls reserved is offered: "ACCEPT is not enabled for such a descriptor;
  the model has no transition" (U2, R83). Safe. -/
  | reservedDescriptor
  /-- Raised when a CHECKSUM or CRC command with `OPA + LEN > 2^32` is offered (R69 (e), U3, R83). Safe. -/
  | outOfRange
  deriving DecidableEq, Repr

/-- The machine right after reset: `phase` is IDLE (R35). The spec states no value for `CMD`, `R`, `idx` and `RES`; the
zeros are this model's (DESIGN CHOICE, entry 1 of the assumption log). No address is `Readable`, the host offers nothing
and no event is pending (entries 2 and 6). -/
def State.reset : State :=
  { phase := .idle
    cmd := 0
    r := 0
    idx := 0
    res := 0
    mem := []
    offers := []
    takes := 0
    env := []
    taken := []
    reads := []
    draws := 0 }

end Sys2Proof.Machine
end

