-- ==== Sys2Proof/Machine/Ops.lean ====
section
/-! DEFINITION. The operations over the data space, and the steps ACCEPT, BYTE, FINAL, TAKE and RESET that all commands
share (spec/40_execution.md R82 to R88, spec/70_reset_and_hazards.md R160). There is no operation that takes an exception:
"The engine raises no synchronous exception" (R140) and "There is no trap mechanism" (R145). -/

namespace Sys2Proof.Machine

/-! ### The data space -/

/-- The canonical form: addresses strictly rising, and below `2^32` (R40). -/
abbrev Memory.wf (m : Memory) : Prop :=
  m.Pairwise (fun x y => x.1 < y.1) ∧ ∀ c ∈ m, c.1 < Config.addressCount

/-- `MemRead(a, 1)`: the byte at `a`, or nothing when `Readable(a)` does not hold (R42, R43). -/
def Memory.read : Memory → Nat → Option Byte
  | [], _ => none
  | (x, b) :: m, a => if x = a then some b else Memory.read m a

/-- `Readable(a)` (R43). -/
def Memory.readable (m : Memory) (a : Nat) : Bool := (m.read a).isSome

/-- The data space after a write of `b` at `a` by its owner; the engine itself "never writes the data space" (R41). -/
def Memory.put : Memory → Nat → Byte → Memory
  | [], a, b => [(a, b)]
  | (x, y) :: m, a, b =>
    if a < x then (a, b) :: (x, y) :: m
    else if x = a then (a, b) :: m
    else (x, y) :: Memory.put m a b

/-- The data space when `a` is no longer `Readable`. -/
def Memory.drop (m : Memory) (a : Nat) : Memory := m.filter fun c => c.1 != a

/-! ### What the host and the environment change -/

/-- The host's offers, replaced. -/
def State.setOffers (s : State) (l : List Desc) : State := { s with offers := l }

/-- The host's readiness to take results, replaced. -/
def State.setTakes (s : State) (k : Nat) : State := { s with takes := k }

/-- The list of what happens next, replaced. -/
def State.setEnv (s : State) (l : List EnvEvent) : State := { s with env := l }

/-- The data space, replaced. -/
def State.setMem (s : State) (m : Memory) : State := { s with mem := m }

/-! ### The steps -/

/-- ACCEPT's assignments, `R` loaded with `load` (R82). -/
def State.accept (s : State) (d : Desc) (load : Word) : State :=
  { s with cmd := d, idx := 0, r := load, phase := .run }

/-- BYTE's assignments for a byte read at address `a` (R84): `R` becomes `r`, `idx` is advanced. -/
def State.consume (s : State) (a : Nat) (r : Word) : State :=
  { s with r := r, idx := s.idx + 1, reads := s.reads ++ [a] }

/-- FINAL's assignments (R86). -/
def State.final (s : State) (result : Word) : State :=
  { s with res := result, phase := .done }

/-- TAKE: "the host receives the 32-bit value `RES`", and the engine is idle (R88). -/
def State.deliver (s : State) : State :=
  { s with taken := s.taken ++ [s.res], phase := .idle }

/-- RESET: `phase` is IDLE, and the four other elements hold unspecified values (R160, R35), which are drawn. That the draw depends on
`draws` alone is a DESIGN CHOICE (entry 3 of the assumption log). -/
def State.resetEngine (s : State) : State :=
  { s with
    phase := .idle
    cmd := Config.resetCmd s.draws
    r := Config.resetR s.draws
    idx := Config.resetIdx s.draws
    res := Config.resetRes s.draws
    draws := s.draws + 1 }

/-- BYTE: one memory read, at `OPA + idx`, and the update of `R` by the byte read (R84). A read where `Readable` fails
has no defined outcome (R43). -/
def byteStep (i : Instr) (update : Word → Byte → Word) (s : State) : Host.Outcome State Fault Refusal :=
  match s.mem.read (byteAddress i s.idx.toNat) with
  | some b => .next (s.consume (byteAddress i s.idx.toNat) (update s.r b))
  | none => .fault (.unreadableByte (byteAddress i s.idx.toNat))

/-- The next step of command `i`, by the engine's phase. IDLE: ACCEPT, for a command the decoder accepts (R82, R83).
RUN, where `i` is the latched command: BYTE while `idx < n_eff`, FINAL when `idx = n_eff` (R84, R86). DONE: "the host's offer
simply waits" (R82). What a family computes is in `load` (what ACCEPT puts into R), `update` (BYTE) and `result` (FINAL). -/
def commandStep (i : Instr) (load : Word) (update : Word → Byte → Word) (result : Word → Word) (s : State) :
    Host.Outcome State Fault Refusal :=
  match s.phase with
  | .idle => if i.wellFormed then .next (s.accept (encode i) load) else .refused .outOfRange
  | .run =>
    if s.idx.toNat < effLen i then byteStep i update s
    else if s.idx.toNat = effLen i then .next (s.final (result s.r))
    else .fault .noStepEnabled
  | .done => .next s

end Sys2Proof.Machine
end

