-- ==== Sys2Proof/Machine/Checksum.lean ====
section
/-! DEFINITION. Family CHECKSUM, the sub-block `checksum_accumulator_modulo` (spec/41_checksum.md). It uses neither the
reflection primitive nor anything of the CRC (R2, R106). -/

namespace Sys2Proof.Machine

/-- `sum_step_W(acc, b0) = trunc_W(acc + zext_W(b0))` (R100). -/
def sumStep {n : Nat} (acc : BitVec n) (b : Byte) : BitVec n := acc + b.setWidth n

/-- `checksum_W(d)`: the bytes added in order to an accumulator that starts at 0 (R101). -/
def checksumOf (n : Nat) (d : List Byte) : BitVec n := d.foldl sumStep 0

/-- A checksum command of width `n`: ACCEPT sets `R <- 0`, BYTE applies `sum_step`, FINAL copies `R[W-1:0]` (R101). -/
def checksumCommand (n : Nat) (i : Instr) (s : State) : Host.Outcome State Fault Refusal :=
  commandStep i 0 (fun r b => zext (sumStep (trunc n r) b)) (fun r => zext (trunc n r)) s

/-- `checksum8(data, length)` (R102). -/
def execChecksum8 (o : Operands) (s : State) : Host.Outcome State Fault Refusal :=
  checksumCommand 8 (.checksum8 o) s

/-- `checksum16(data, length)`: single bytes into a 16-bit accumulator (R103). -/
def execChecksum16 (o : Operands) (s : State) : Host.Outcome State Fault Refusal :=
  checksumCommand 16 (.checksum16 o) s

/-- `checksum32(data, length)`: single bytes into a 32-bit accumulator (R104). -/
def execChecksum32 (o : Operands) (s : State) : Host.Outcome State Fault Refusal :=
  checksumCommand 32 (.checksum32 o) s

end Sys2Proof.Machine
end

