-- ==== Sys2Proof/Machine/Reflect.lean ====
section
/-! DEFINITION. Family REFLECT and the primitive it shares with the CRC, the sub-block `bit_reflection_barrel`
(spec/42_reflect.md). -/

namespace Sys2Proof.Machine

/-- The reversed bits 0 to `k - 1` of `v`, as a number: the sum over `i < k` of `v[i] * 2^(k-1-i)` (R110). -/
def reversedBits {n : Nat} (v : BitVec n) : Nat → Nat
  | 0 => 0
  | k + 1 => 2 * reversedBits v k + (v.getLsbD k).toNat

/-- `reflect(v, N)` for an `N`-bit `v`: bit `i` moves to position `N-1-i` (R110). -/
def reflect {n : Nat} (v : BitVec n) : BitVec n := BitVec.ofNat n (reversedBits v n)

/-- A reflection command of width `n`: ACCEPT loads `trunc_W(OPA)`, no BYTE step is taken, FINAL reflects `R[W-1:0]` (R111).
The update is never used: `effLen` of a reflection is 0. -/
def reflectCommand (n : Nat) (i : Instr) (s : State) : Host.Outcome State Fault Refusal :=
  commandStep i (zext (valueOperand n i.operands)) (fun r _ => r) (fun r => zext (reflect (trunc n r))) s

/-- `reflect_bits(value, 8)` (R112). -/
def execReflectBits8 (o : Operands) (s : State) : Host.Outcome State Fault Refusal :=
  reflectCommand 8 (.reflectBits8 o) s

/-- `reflect_bits(value, 16)` (R113). -/
def execReflectBits16 (o : Operands) (s : State) : Host.Outcome State Fault Refusal :=
  reflectCommand 16 (.reflectBits16 o) s

/-- `reflect_bits(value, 32)` (R114). -/
def execReflectBits32 (o : Operands) (s : State) : Host.Outcome State Fault Refusal :=
  reflectCommand 32 (.reflectBits32 o) s

end Sys2Proof.Machine
end

