-- ==== Sys2Proof/Machine/Crc.lean ====
section
/-! DEFINITION. Family CRC, "bit-at-a-time, MSB-first shift register" (spec/43_crc.md). It uses the reflection primitive in
two places only: on each input byte and on the whole register at the end (R116). -/

namespace Sys2Proof.Machine

/-- The configuration of a CRC of width `n`: `cfg = (poly, init, refin, refout, xorout)` (spec/43_crc.md). -/
structure CrcParams (n : Nat) where
  poly : BitVec n
  init : BitVec n
  refin : Bool
  refout : Bool
  xorout : BitVec n
  deriving DecidableEq, Repr

/-- The configuration a descriptor carries, each word truncated to the width (R67). -/
def crcParams (n : Nat) (refin refout : Bool) (o : Operands) : CrcParams n :=
  { poly := polyOperand n o, init := initOperand n o, refin := refin, refout := refout, xorout := xoroutOperand n o }

/-- `crc_bit_W(r, poly)`: the bit W-1 that the shift discards decides whether the polynomial is mixed in (R122). -/
def crcBit {n : Nat} (r poly : BitVec n) : BitVec n :=
  if r.msb then r <<< 1 ^^^ poly else r <<< 1

/-- `k` single-bit updates. -/
def crcBits {n : Nat} (poly : BitVec n) : Nat → BitVec n → BitVec n
  | 0, r => r
  | k + 1, r => crcBits poly k (crcBit r poly)

/-- `crc_byte_W(r, b0, refin, poly)`: the byte, reflected if `refin`, is mixed into the top byte of the register, and the
single-bit update is repeated 8 times (R121). -/
def crcByte {n : Nat} (r : BitVec n) (b0 : Byte) (refin : Bool) (poly : BitVec n) : BitVec n :=
  let b := if refin then reflect b0 else b0
  crcBits poly 8 (r ^^^ b.setWidth n <<< (n - 8))

/-- `crc_final_W(r, xorout, refout)`: "The final XOR comes first and the output reflection second" (R124; C1). -/
def crcFinal {n : Nat} (r xorout : BitVec n) (refout : Bool) : BitVec n :=
  if refout then reflect (r ^^^ xorout) else r ^^^ xorout

/-- The register after the bytes `d`, from `r` on (R125). -/
def crcRegister {n : Nat} (p : CrcParams n) (r : BitVec n) (d : List Byte) : BitVec n :=
  d.foldl (fun r b => crcByte r b p.refin p.poly) r

/-- `crc_W(cfg, d)` (R125). -/
def crcOf {n : Nat} (p : CrcParams n) (d : List Byte) : BitVec n :=
  crcFinal (crcRegister p p.init d) p.xorout p.refout

/-- A CRC command of width `n`: ACCEPT sets `R <- init` (R120), BYTE applies `crc_byte` (R121), FINAL `crc_final` (R124). -/
def crcCommand (n : Nat) (p : CrcParams n) (i : Instr) (s : State) : Host.Outcome State Fault Refusal :=
  commandStep i (zext p.init) (fun r b => zext (crcByte (trunc n r) b p.refin p.poly))
    (fun r => zext (crcFinal (trunc n r) p.xorout p.refout)) s

/-- `crc8(config, data, length)` (R126). -/
def execCrc8 (refin refout : Bool) (o : Operands) (s : State) : Host.Outcome State Fault Refusal :=
  crcCommand 8 (crcParams 8 refin refout o) (.crc8 refin refout o) s

/-- `crc16(config, data, length)` (R127). -/
def execCrc16 (refin refout : Bool) (o : Operands) (s : State) : Host.Outcome State Fault Refusal :=
  crcCommand 16 (crcParams 16 refin refout o) (.crc16 refin refout o) s

/-- `crc32(config, data, length)` (R128). -/
def execCrc32 (refin refout : Bool) (o : Operands) (s : State) : Host.Outcome State Fault Refusal :=
  crcCommand 32 (crcParams 32 refin refout o) (.crc32 refin refout o) s

end Sys2Proof.Machine
end

