-- ==== Sys2Proof/Machine/Dispatch.lean ====
section
/-! DEFINITION. One arm per command (spec/opcode_table.json, in its order): the next step of that command. -/

namespace Sys2Proof.Machine

def exec (i : Instr) (s : State) : Host.Outcome State Fault Refusal :=
  match i with
  | .checksum8 o => Sys2Proof.Machine.execChecksum8 o s
  | .checksum16 o => Sys2Proof.Machine.execChecksum16 o s
  | .checksum32 o => Sys2Proof.Machine.execChecksum32 o s
  | .reflectBits8 o => Sys2Proof.Machine.execReflectBits8 o s
  | .reflectBits16 o => Sys2Proof.Machine.execReflectBits16 o s
  | .reflectBits32 o => Sys2Proof.Machine.execReflectBits32 o s
  | .crc8 refin refout o => Sys2Proof.Machine.execCrc8 refin refout o s
  | .crc16 refin refout o => Sys2Proof.Machine.execCrc16 refin refout o s
  | .crc32 refin refout o => Sys2Proof.Machine.execCrc32 refin refout o s

end Sys2Proof.Machine
end

