-- ==== Sys2Proof/Machine/Sequencer.lean ====
section
/-! DEFINITION. Which step happens: the sequencer by its phase (R23, R144), and the events of the environment. It stands
between `exec` and `step` so that `step` only calls it. -/

namespace Sys2Proof.Machine

/-- The next step of the command that a descriptor encodes; a reserved or out-of-range descriptor has none (R83). -/
def runDescriptor (d : Desc) (s : State) : Host.Outcome State Fault Refusal :=
  match decode d with
  | .command i => exec i s
  | .reserved => .refused .reservedDescriptor
  | .outOfRange => .refused .outOfRange

/-- IDLE: the first offered descriptor is accepted; without an offer the engine is "simply standing" (R82, R150). -/
def idleTurn (s : State) : Host.Outcome State Fault Refusal :=
  match s.offers with
  | d :: rest => runDescriptor d (s.setOffers rest)
  | [] => .next s

/-- DONE: the result is taken when the host is ready; "Until TAKE happens the engine stays in DONE, holds `RES` unchanged and
accepts no command" (R88). -/
def doneTurn (s : State) : Host.Outcome State Fault Refusal :=
  match s.takes with
  | k + 1 => .next (s.setTakes k).deliver
  | 0 => .next s

/-- The step that the phase enables: "in IDLE only ACCEPT is enabled, in RUN exactly one of BYTE and FINAL, in DONE only
TAKE" (R144). In RUN the engine runs from `CMD` alone (R57). -/
def engineTurn (s : State) : Host.Outcome State Fault Refusal :=
  match s.phase with
  | .idle => idleTurn s
  | .run => runDescriptor s.cmd s
  | .done => doneTurn s

/-- One event, already removed from the list of what happens next. RESET "takes effect instead of any step" (R144). -/
def eventStep (e : EnvEvent) (s : State) : Host.Outcome State Fault Refusal :=
  match e with
  | .turn => engineTurn s
  | .reset => .next s.resetEngine
  | .store a b => .next (s.setMem (s.mem.put a.toNat b))
  | .withdraw a => .next (s.setMem (s.mem.drop a.toNat))

/-- What happens next: the first listed event, or, when none is listed, the engine's turn. -/
def nextStep (s : State) : Host.Outcome State Fault Refusal :=
  match s.env with
  | [] => engineTurn s
  | e :: rest => eventStep e (s.setEnv rest)

/-- The engine idle, the descriptor first among the host's offers, and the next turn the engine's. -/
def State.offering (s : State) (d : Desc) : State :=
  { s with phase := .idle, offers := d :: s.offers, env := .turn :: s.env }

end Sys2Proof.Machine
end

