-- ==== Sys2Proof/Machine/Step.lean ====
section
/-! DEFINITION. One step of the machine. A command is not fetched from memory (R57, R60): the host offers it on the command
interface, and ACCEPT latches it. -/

namespace Sys2Proof.Machine

/-- One step. -/
def step (s : State) : Host.Outcome State Fault Refusal := nextStep s

/-- The state in which the host offers the descriptor with bits `w` (those at and above `nbits` zero) and the very next step is
its ACCEPT. -/
def State.withFetchWord (s : State) (nbits w : Nat) : State :=
  s.offering (BitVec.ofNat 192 (w % 2 ^ nbits))

end Sys2Proof.Machine
end

