-- ==== Sys2Proof/Machine/System.lean ====
section
/-! DEFINITION. A system of several engines over one data space (spec/60_exceptions.md R149): `N_INST` engines (R6, OPEN), each
with its own state and its own three interfaces, sharing nothing but the memory they read. An engine that does something the spec
leaves without an outcome stops alone: the other engines, which "never communicate" with it, go on. -/

namespace Sys2Proof.Machine

/-- Why an engine of a system stopped (U1, U2, U3). -/
inductive Stop where
  | fault (f : Fault)
  | refused (f : Refusal)
  deriving DecidableEq, Repr

/-- The state elements of one engine, "and no other" (R20). -/
structure Elements where
  phase : Phase
  cmd : Desc
  r : Word
  idx : Word
  res : Word
  deriving DecidableEq, Repr

/-- Whether an engine works. After a stop its state elements have no value that could be spoken of: nothing may be claimed of
them "until a RESET" (U1). -/
inductive EngineStatus where
  | working (x : Elements)
  | stopped (why : Stop)
  deriving DecidableEq, Repr

/-- One engine of a system with its own interfaces, their host and its environment's events. -/
structure Engine where
  status : EngineStatus
  offers : List Desc
  takes : Nat
  env : List EnvEvent
  taken : List Word
  reads : List Nat
  draws : Nat
  deriving DecidableEq, Repr

/-- The engines, the data space they share, and whose turn comes next. -/
structure System where
  engines : List Engine
  mem : Memory
  turns : List Nat
  deriving DecidableEq, Repr

/-! ### One engine seen alone -/

/-- A working engine with state elements `x`, as a machine of its own over data space `m`. -/
def Engine.over (e : Engine) (x : Elements) (m : Memory) : State :=
  { phase := x.phase, cmd := x.cmd, r := x.r, idx := x.idx, res := x.res, mem := m, offers := e.offers, takes := e.takes,
    env := e.env, taken := e.taken, reads := e.reads, draws := e.draws }

/-- The state elements of a machine (R20). -/
def State.elements (s : State) : Elements :=
  { phase := s.phase, cmd := s.cmd, r := s.r, idx := s.idx, res := s.res }

/-- A machine without its data space: a working engine. -/
def State.engine (s : State) : Engine :=
  { status := .working s.elements, offers := s.offers, takes := s.takes, env := s.env, taken := s.taken, reads := s.reads,
    draws := s.draws }

/-! ### A step of one engine of a system -/

/-- The state elements after a RESET: IDLE, and free values (R35, R160). The values depend on the engine's own count of RESETs alone,
so that two engines of a system with equal counts are left equal values: DESIGN CHOICE, unsafe, since the spec leaves the values open
for each engine (U5; entries 3 and 13 of the assumption log). -/
def Elements.afterReset (n : Nat) : Elements :=
  { phase := .idle, cmd := Config.resetCmd n, r := Config.resetR n, idx := Config.resetIdx n, res := Config.resetRes n }

/-- The engine stops in the turn it had; a stop in IDLE is the refusal of the first offer, which is gone with it (entry 13 of the
assumption log). -/
def Engine.stop (e : Engine) (x : Elements) (why : Stop) : Engine :=
  { e with status := .stopped why, env := e.env.tail, offers := if x.phase = .idle then e.offers.tail else e.offers }

/-- A step of a working engine: the step it takes alone, or its stop, which touches nothing shared. -/
def workingStep (e : Engine) (x : Elements) (m : Memory) : Engine × Memory :=
  match step (e.over x m) with
  | .next s => (s.engine, s.mem)
  | .fault f => (e.stop x (.fault f), m)
  | .refused f => (e.stop x (.refused f), m)

/-- An event at a stopped engine, already removed from its list. RESET is "enabled in every phase" and makes it work again
(R160, U1); its environment still owns the data space; the engine itself takes no step. -/
def stoppedEvent (v : EnvEvent) (e : Engine) (m : Memory) : Engine × Memory :=
  match v with
  | .turn => (e, m)
  | .reset => ({ e with status := .working (Elements.afterReset e.draws), draws := e.draws + 1 }, m)
  | .store a b => (e, m.put a.toNat b)
  | .withdraw a => (e, m.drop a.toNat)

/-- A step of a stopped engine: its next event, if one is listed. -/
def stoppedStep (e : Engine) (m : Memory) : Engine × Memory :=
  match e.env with
  | [] => (e, m)
  | v :: later => stoppedEvent v { e with env := later } m

/-- A step of one engine over the shared data space. -/
def engineStep (e : Engine) (m : Memory) : Engine × Memory :=
  match e.status with
  | .working x => workingStep e x m
  | .stopped _ => stoppedStep e m

/-! ### A step of the system -/

/-- One step of a system: the engine whose turn it is takes one step. A turn of an engine that does not exist passes; when no turn
is listed the system stands. The system itself never stops. -/
def systemStep (y : System) : System :=
  match y.turns with
  | [] => y
  | k :: rest =>
    match y.engines[k]? with
    | none => { y with turns := rest }
    | some e =>
      { engines := y.engines.set k (engineStep e y.mem).1, mem := (engineStep e y.mem).2, turns := rest }

end Sys2Proof.Machine
end

