-- ==== Sys2Proof/Machine/TextForm.lean ====
section
/-! DEFINITION. The text form of a command (spec/30_encoding.md R73, R74) and the command it assembles to. The engine does not
read text: "this notation exists so that examples can be written down" (R73). -/

namespace Sys2Proof.Machine

/-- The operand words of a call that has no configuration: the unused words are zero, as in the spec's worked encodings. -/
def plainOperands (opa len : Word) : Operands := { poly := 0, init := 0, xorout := 0, opa := opa, len := len }

/-- The operand words of a CRC call: the five fields of the record go to REFIN, REFOUT, POLY, INIT and XOROUT (R61, R74). -/
def crcOperands (c : CrcConfig) (opa len : Word) : Operands :=
  { poly := c.polynomial, init := c.initialValue, xorout := c.finalXor, opa := opa, len := len }

/-- The command a call assembles to: `reflect_bits(v, N)` is `reflect_bits_N` (R73). -/
def assemble : Call → Instr
  | .checksum .w8 data length => .checksum8 (plainOperands data length)
  | .checksum .w16 data length => .checksum16 (plainOperands data length)
  | .checksum .w32 data length => .checksum32 (plainOperands data length)
  | .reflectBits value .w8 => .reflectBits8 (plainOperands value 0)
  | .reflectBits value .w16 => .reflectBits16 (plainOperands value 0)
  | .reflectBits value .w32 => .reflectBits32 (plainOperands value 0)
  | .crc .w8 c data length => .crc8 c.reflectInput c.reflectOutput (crcOperands c data length)
  | .crc .w16 c data length => .crc16 c.reflectInput c.reflectOutput (crcOperands c data length)
  | .crc .w32 c data length => .crc32 c.reflectInput c.reflectOutput (crcOperands c data length)

/-- The last `k` hexadecimal digits of `v`. -/
def hexDigits : Nat → Nat → List Char
  | 0, _ => []
  | k + 1, v => hexDigits k (v / 16) ++ [(Nat.digitChar (v % 16)).toUpper]

/-- `0x` and `k` hexadecimal digits. -/
def hexText (k : Nat) (v : Word) : List Char := "0x".toList ++ hexDigits k v.toNat

/-- `true` or `false`. -/
def boolText (b : Bool) : List Char := if b then "true".toList else "false".toList

/-- A configuration in the short form of the field names, with `k` digits a value (R73, R74). The characters 123 and 125 are the
opening and the closing brace. -/
def configText (k : Nat) (c : CrcConfig) : List Char :=
  [Char.ofNat 123] ++ "Poly=".toList ++ hexText k c.polynomial ++ ", Init=".toList ++ hexText k c.initialValue
    ++ ", refIn=".toList ++ boolText c.reflectInput ++ ", refOut=".toList ++ boolText c.reflectOutput
    ++ ", xorOut=".toList ++ hexText k c.finalXor ++ [Char.ofNat 125]

/-- The text of a call, as its characters (R73). Addresses and values have 8 digits, configuration values W/4 digits, lengths and
widths are decimal (entry 9 of the assumption log). -/
def callText : Call → List Char
  | .checksum w data length =>
    "checksum".toList ++ (Nat.toDigits 10 w.bits) ++ "(".toList ++ hexText 8 data ++ ", ".toList
      ++ (Nat.toDigits 10 length.toNat) ++ ")".toList
  | .reflectBits value w =>
    "reflect_bits(".toList ++ hexText 8 value ++ ", ".toList ++ (Nat.toDigits 10 w.bits) ++ ")".toList
  | .crc w c data length =>
    "crc".toList ++ (Nat.toDigits 10 w.bits) ++ "(".toList ++ configText (w.bits / 4) c ++ ", ".toList ++ hexText 8 data
      ++ ", ".toList ++ (Nat.toDigits 10 length.toNat) ++ ")".toList

end Sys2Proof.Machine
end

