-- ==== Sys2Proof/Machine/Flags.lean ====
section
/-! DEFINITION. The engine has no flags: "no condition codes, no carry, overflow, zero or sign flag" (R29). What the host
sees are three status outputs, "each a pure function of `phase`" (R30). -/

namespace Sys2Proof.Machine

/-- `cmd_ready = (phase = IDLE)` (R30). -/
def cmdReady (s : State) : Bool := s.phase == .idle

/-- `busy = (phase = RUN)` (R30). -/
def busy (s : State) : Bool := s.phase == .run

/-- `res_valid = (phase = DONE)` (R30). -/
def resValid (s : State) : Bool := s.phase == .done

end Sys2Proof.Machine
end

