-- ==== Sys2Proof/Machine/Result.lean ====
section
/-! DEFINITION. What a whole command computes: the pure function `F(DESC, d)` of R91, over which the statements about whole
commands are written. The machine does not call it: it takes the steps. -/

namespace Sys2Proof.Machine

/-- The value TAKE delivers, `zext_32(F(DESC, d))`, for the bytes `d` that the command's BYTE steps read (R91). -/
def resultOf (i : Instr) (d : List Byte) : Word :=
  match i with
  | .checksum8 _ => zext (checksumOf 8 d)
  | .checksum16 _ => zext (checksumOf 16 d)
  | .checksum32 _ => zext (checksumOf 32 d)
  | .reflectBits8 o => zext (reflect (valueOperand 8 o))
  | .reflectBits16 o => zext (reflect (valueOperand 16 o))
  | .reflectBits32 o => zext (reflect (valueOperand 32 o))
  | .crc8 refin refout o => zext (crcOf (crcParams 8 refin refout o) d)
  | .crc16 refin refout o => zext (crcOf (crcParams 16 refin refout o) d)
  | .crc32 refin refout o => zext (crcOf (crcParams 32 refin refout o) d)

/-- The addresses of a command's buffer, in ascending order: `OPA + 0` to `OPA + n_eff - 1` (R44). -/
def bufferAddresses (i : Instr) : List Nat := (List.range (effLen i)).map (byteAddress i)

/-- The buffer of command `i` in data space `m` holds exactly the bytes `d`, all of them `Readable` (R40, R43). -/
def bufferHolds (i : Instr) (m : Memory) (d : List Byte) : Prop :=
  (bufferAddresses i).map m.read = d.map some

end Sys2Proof.Machine
end

