-- ==== Sys2Proof/Safety.lean ====
section
/-! DEFINITION. What counts as a safe run: the invariant of the machine (R25), what the host owes the engine (R164 to R169), and
which states a host cannot tell apart (R32). -/

namespace Sys2Proof.Machine

/-- `n` steps, stopping at the first fault or refusal. -/
def runFor : Nat → State → Host.Outcome State Fault Refusal
  | 0, s => .next s
  | n + 1, s =>
    match step s with
    | .next t => runFor n t
    | .fault f => .fault f
    | .refused f => .refused f

/-- R25 and R26 for the latched command: in RUN a command is latched, `R < 2^W` and `idx <= n_eff`; in DONE a command is latched
and `RES < 2^W`. -/
def latchInv (s : State) (i : Instr) : Prop :=
  match s.phase with
  | .idle => True
  | .run => s.r.toNat < 2 ^ i.width.bits ∧ s.idx.toNat ≤ effLen i
  | .done => s.res.toNat < 2 ^ i.width.bits

/-- The invariant: the data space is in canonical form, and outside IDLE the latch holds a command for which R25 holds. -/
def Inv (s : State) : Prop :=
  s.mem.wf ∧ (s.phase = .idle ∨ ∃ i, decode s.cmd = .command i ∧ latchInv s i)

/-- The event touches the buffer of command `i`: a write or a withdrawal at one of its addresses, which R53 (d) forbids the host
while the command runs. -/
def touchesBuffer (i : Instr) : EnvEvent → Bool
  | .turn => false
  | .reset => false
  | .store a _ => decide (byteAddress i 0 ≤ a.toNat ∧ a.toNat < byteAddress i (effLen i))
  | .withdraw a => decide (byteAddress i 0 ≤ a.toNat ∧ a.toNat < byteAddress i (effLen i))

/-- The environment keeps R53 (d) for command `i` and causes no RESET (R161). -/
def quietFor (i : Instr) (env : List EnvEvent) : Prop :=
  ∀ e ∈ env, e ≠ .reset ∧ touchesBuffer i e = false

/-- The host offers legal descriptors only (R169). -/
def offersLegal (s : State) : Prop :=
  ∀ d ∈ s.offers, ∃ i, decode d = .command i

/-- The byte that the next BYTE step reads is `Readable`: the part of R165 that one step depends on. -/
def nextByteReadable (s : State) : Prop :=
  ∀ i, s.phase = .run → decode s.cmd = .command i → s.idx.toNat < effLen i →
    s.mem.readable (byteAddress i s.idx.toNat) = true

/-- Nothing but leftovers differ: the phases and everything outside the engine are the same, and so are the elements that the
phase's steps read: `CMD`, `R` and `idx` in RUN, `RES` in DONE (R32, R36). -/
def sameButLeftovers (s t : State) : Prop :=
  s.phase = t.phase ∧ s.mem = t.mem ∧ s.offers = t.offers ∧ s.takes = t.takes ∧ s.env = t.env ∧ s.taken = t.taken ∧
    s.reads = t.reads ∧ (s.phase = .run → s.cmd = t.cmd ∧ s.r = t.r ∧ s.idx = t.idx) ∧
    (s.phase = .done → s.res = t.res)

end Sys2Proof.Machine
end

