-- ==== Sys2Proof/Certificates/Slice0/Obligations.lean ====
section
/-! DEFINITION. The statements about the model, each from the rules of the spec that its docstring names. -/

open Sys2Proof Sys2Proof.Machine

/-! ### Encoding -/

/-- R61 to R66, R72: decoding the encoding of a command that may be offered gives the command back, with every operand word and
both reflection bits at every value. -/
def Obligations.DecodeOfEncodeIsTheCommand : Prop :=
  ∀ i : Instr, i.wellFormed = true → decode (encode i) = .command i

/-- R61 to R66, R70, R72: a descriptor that decodes to a command is the encoding of that command, unused words included, and the
command may be offered. -/
def Obligations.EncodeOfDecodeIsTheDescriptor : Prop :=
  ∀ (d : Desc) (i : Instr), decode d = .command i → i.wellFormed = true ∧ encode i = d

/-- R69 (a) to (d), R72: the verdict `Reserved`, in terms of the number that `CTRL` (word 0 of the descriptor) is. -/
def Obligations.ReservedExactlyAsListed : Prop :=
  ∀ d : Desc, decode d = .reserved ↔
    (let c := d.toNat % 2 ^ 32
     c / 2 ^ 6 ≠ 0 ∨ c % 4 = 0 ∨ c / 4 % 4 = 3 ∨ ((c % 4 = 1 ∨ c % 4 = 2) ∧ c / 16 % 4 ≠ 0))

/-- R69 (e), R72, U3: the verdict `OutOfRange`, in terms of the numbers that `CTRL`, `OPA` and `LEN` (words 0, 4 and 5) are. -/
def Obligations.OutOfRangeExactlyAsListed : Prop :=
  ∀ d : Desc, decode d = .outOfRange ↔
    (decode d ≠ .reserved ∧ (d.toNat % 4 = 1 ∨ d.toNat % 4 = 3) ∧
      2 ^ 32 < d.toNat / 2 ^ 128 % 2 ^ 32 + d.toNat / 2 ^ 160)

/-- R66: "No two rows overlap": every `CTRL` word selects at most one row, and it selects none exactly when it is reserved. -/
def Obligations.ControlWordSelectsOneRowUnlessReserved : Prop :=
  ∀ c : Word, (opcodeRows.filter (selects c)).length = if isReserved c then 0 else 1

/-- Section 5 of spec/30_encoding.md and V-DEC-6, V-DEC-8, V-DEC-12 of spec/95_test_vectors.md: worked descriptors decode to the
commands and verdicts written there. -/
def Obligations.WorkedDescriptorsDecode : Prop :=
  decode 0x000000090000100000000000000000000000003100000033#192
      = .command (.crc8 true true { poly := 0x31, init := 0, xorout := 0, opa := 0x1000, len := 9 }) ∧
  decode 0x000000020000200000000000000000000000000000000005#192
      = .command (.checksum16 { poly := 0, init := 0, xorout := 0, opa := 0x2000, len := 2 }) ∧
  decode 0xFFFFFFFFFFFFFFFF0000000000000000000000000000000A#192
      = .command (.reflectBits32 { poly := 0, init := 0, xorout := 0, opa := 0xFFFFFFFF, len := 0xFFFFFFFF }) ∧
  decode 0x00000002FFFFFFFF00000000000000000000000000000001#192 = .outOfRange ∧
  decode 0x000000090000100000000000000000000000003180000033#192 = .reserved

/-- R61, R73, R74: where each argument of a CRC call stands in the descriptor that the call assembles to. -/
def Obligations.CrcCallFieldsReachTheirDescriptorBits : Prop :=
  ∀ (w : Width) (c : CrcConfig) (data length : Word),
    let d := encode (assemble (.crc w c data length))
    d.extractLsb' 32 32 = c.polynomial ∧ d.extractLsb' 64 32 = c.initialValue ∧ d.extractLsb' 96 32 = c.finalXor ∧
      d.extractLsb' 128 32 = data ∧ d.extractLsb' 160 32 = length ∧ d.getLsbD 4 = c.reflectInput ∧
      d.getLsbD 5 = c.reflectOutput

/-! ### Which step happens -/

/-- R81 (a), R82: in IDLE, with a command offered and the turn the engine's, the step is the offered command's, the offer being
taken from the host's list. -/
def Obligations.StepRunsTheOfferedCommand : Prop :=
  ∀ (s : State) (d : Desc) (rest : List Desc) (i : Instr), s.phase = .idle → s.offers = d :: rest → decode d = .command i →
    (s.env = [] → step s = exec i (s.setOffers rest)) ∧
    (∀ later, s.env = .turn :: later → step s = exec i ((s.setEnv later).setOffers rest))

/-- R57, R84, R86: in RUN, with the turn the engine's, the step is that of the command latched in `CMD`. -/
def Obligations.StepRunsTheLatchedCommand : Prop :=
  ∀ (s : State) (i : Instr), s.phase = .run → decode s.cmd = .command i →
    (s.env = [] → step s = exec i s) ∧
    (∀ later, s.env = .turn :: later → step s = exec i (s.setEnv later))

/-- R60, R82: after `withFetchWord`, the very next step runs the command whose descriptor has the given bits. -/
def Obligations.StepAfterWithFetchWordRunsTheWord : Prop :=
  ∀ (s : State) (w : Nat) (i : Instr), decodeTableWord 192 w = some i →
    step (s.withFetchWord 192 w) = exec i { s with phase := .idle }

/-! ### ACCEPT -/

/-- R82: ACCEPT of each of the nine commands, as one assignment of the whole state, every other field unchanged; and when `phase` is
not IDLE the host's offer waits: whatever the step is, no offer is lost. -/
def Obligations.AcceptLatchesTheDescriptorAndLoadsR : Prop :=
  (∀ (i : Instr) (s : State), s.phase = .idle → i.wellFormed = true →
    exec i s = .next
      { s with
        phase := .run
        cmd := encode i
        idx := 0
        r := match i.family with
          | .checksum => 0
          | .reflect => zext (trunc i.width.bits i.operands.opa)
          | .crc => zext (trunc i.width.bits i.operands.init) }) ∧
  (∀ s t : State, s.phase ≠ .idle → step s = .next t → t.offers = s.offers)

/-- R69, R83, U2, U3: a reserved or out-of-range descriptor that is offered has no ACCEPT: the model refuses it, and so it does a
command out of range that is handed to `exec` itself. -/
def Obligations.IllegalOfferIsRefused : Prop :=
  (∀ (s : State) (d : Desc) (rest : List Desc), s.phase = .idle → s.offers = d :: rest → s.env = [] →
    (decode d = .reserved → step s = .refused .reservedDescriptor) ∧
    (decode d = .outOfRange → step s = .refused .outOfRange)) ∧
  (∀ (i : Instr) (s : State), s.phase = .idle → i.wellFormed = false → exec i s = .refused .outOfRange)

/-! ### BYTE -/

/-- R84, R100, R121: BYTE of the checksums and the CRCs, with the byte `b` that memory holds at `OPA + idx`: a checksum adds it,
unsigned, modulo `2^W`; a CRC applies `crc_byte_W` with REFIN and the low W bits of POLY. Every other field is unchanged. (A reflection
takes no BYTE step: its `n_eff` is 0.) -/
def Obligations.ByteStepConsumesOneByte : Prop :=
  ∀ (i : Instr) (s : State) (b : Byte), s.phase = .run → s.idx.toNat < effLen i →
    s.mem.read (i.operands.opa.toNat + s.idx.toNat) = some b →
    exec i s = .next
      { s with
        r := match i.family with
          | .checksum => BitVec.ofNat 32 ((s.r.toNat % 2 ^ i.width.bits + b.toNat) % 2 ^ i.width.bits)
          | .reflect => s.r
          | .crc => zext (crcByte (trunc i.width.bits s.r) b i.refin (trunc i.width.bits i.operands.poly))
        idx := s.idx + 1
        reads := s.reads ++ [i.operands.opa.toNat + s.idx.toNat] }

/-- R24, R84: a BYTE step advances `idx` by one as a number: the 32-bit counter never wraps. -/
def Obligations.ByteStepAdvancesIdxWithoutWrap : Prop :=
  ∀ (i : Instr) (s t : State), s.phase = .run → s.idx.toNat < effLen i → exec i s = .next t →
    t.idx.toNat = s.idx.toNat + 1

/-- R45: for a command that may be offered, every effective address `OPA + idx` with `idx < n_eff` fits in 32 bits. -/
def Obligations.EffectiveAddressFitsIn32Bits : Prop :=
  ∀ (i : Instr) (k : Nat), i.wellFormed = true → k < effLen i → byteAddress i k < 2 ^ 32

/-- R43, U1: a BYTE step at an address that is not `Readable` ends in the model's fault, naming the address. -/
def Obligations.UnreadableByteFaults : Prop :=
  ∀ (i : Instr) (s : State), i.family ≠ .reflect → s.phase = .run → s.idx.toNat < i.operands.len.toNat →
    s.mem.read (i.operands.opa.toNat + s.idx.toNat) = none →
    exec i s = .fault (.unreadableByte (i.operands.opa.toNat + s.idx.toNat))

/-! ### FINAL and TAKE -/

/-- R86, R101, R111, R124: FINAL of each of the nine commands: a checksum copies the low W bits of `R` to `RES`, a reflection reverses
them, a CRC applies `crc_final_W` with the low W bits of XOROUT and REFOUT. Every other field is unchanged. -/
def Obligations.FinalPutsTheResultIntoRes : Prop :=
  ∀ (i : Instr) (s : State), s.phase = .run → s.idx.toNat = effLen i →
    exec i s = .next
      { s with
        phase := .done
        res := match i.family with
          | .checksum => BitVec.ofNat 32 (s.r.toNat % 2 ^ i.width.bits)
          | .reflect => zext (reflect (trunc i.width.bits s.r))
          | .crc => zext (crcFinal (trunc i.width.bits s.r) (trunc i.width.bits i.operands.xorout) i.refout) }

/-- R27: `n_eff` is `LEN` for a checksum and a CRC, and 0 for a reflection. -/
def Obligations.EffectiveLengthByFamily : Prop :=
  ∀ i : Instr, (i.family = .checksum ∨ i.family = .crc → effLen i = i.operands.len.toNat) ∧ (i.family = .reflect → effLen i = 0)

/-- R88, R168: TAKE: the host receives `RES`, the engine is idle, and nothing else changes (but the host's readiness, which is used
up); while the host is not ready, the engine stands in DONE unchanged for any number of steps, whatever is offered. -/
def Obligations.TakeDeliversResAndDoneWaitsForIt : Prop :=
  (∀ (s : State) (k : Nat), s.phase = .done → s.takes = k + 1 → s.env = [] →
    step s = .next { s with phase := .idle, takes := k, taken := s.taken ++ [s.res] }) ∧
  (∀ (s : State) (n : Nat), s.phase = .done → s.takes = 0 → s.env = [] → runFor n s = .next s)

/-! ### RESET -/

/-- R160, R161, R151, R144: RESET, in any phase and instead of any step: the engine is idle, no result is delivered, no offer is
lost, memory is untouched; `CMD`, `R`, `idx` and `RES` hold free values, of which nothing is claimed. -/
def Obligations.ResetAbandonsTheCommand : Prop :=
  ∀ (s : State) (later : List EnvEvent), s.env = .reset :: later →
    ∃ cmd r idx res n, step s = .next
      { s with phase := .idle, env := later, cmd := cmd, r := r, idx := idx, res := res, draws := n }

/-- R35, R30: right after reset `phase` is IDLE, `cmd_ready` is true, `busy` and `res_valid` are false. -/
def Obligations.AfterResetTheEngineIsReady : Prop :=
  State.reset.phase = .idle ∧ cmdReady State.reset = true ∧ busy State.reset = false ∧ resValid State.reset = false

/-! ### Whole-machine rules -/

/-- R30: in every state exactly one status output is true, and which one follows `phase`. -/
def Obligations.OneStatusOutputIsTrue : Prop :=
  ∀ s : State, ([cmdReady s, busy s, resValid s].filter id).length = 1 ∧
    (cmdReady s = true ↔ s.phase = .idle) ∧ (busy s = true ↔ s.phase = .run) ∧ (resValid s = true ↔ s.phase = .done)

/-- R23: the only changes of phase are IDLE to RUN, RUN to DONE, DONE to IDLE, and, by a RESET, any phase to IDLE. -/
def Obligations.PhaseMovesOnlyAlongTheCycle : Prop :=
  ∀ s t : State, step s = .next t →
    t.phase = s.phase ∨ (s.phase = .idle ∧ t.phase = .run) ∨ (s.phase = .run ∧ t.phase = .done) ∨
      (s.phase = .done ∧ t.phase = .idle) ∨ (s.env.head? = some .reset ∧ t.phase = .idle)

/-- R26, R57: outside IDLE, only a RESET changes `CMD`; in IDLE only ACCEPT does, and it writes the whole offered descriptor. -/
def Obligations.OnlyAcceptAndResetWriteCmd : Prop :=
  ∀ s t : State, step s = .next t → t.cmd ≠ s.cmd →
    s.env.head? = some .reset ∨ (s.phase = .idle ∧ t.phase = .run ∧ s.offers.head? = some t.cmd)

/-- R41: no step of the engine changes the data space: every byte reads as before, unless the step is the environment's write or
withdrawal. -/
def Obligations.EngineNeverWritesMemory : Prop :=
  ∀ s t : State, step s = .next t → (∀ a b, s.env.head? ≠ some (.store a b)) → (∀ a, s.env.head? ≠ some (.withdraw a)) →
    ∀ a, t.mem.read a = s.mem.read a

/-- R44, R53 (a): a step makes at most one read; it is made in RUN, for a command that reads a buffer, at `OPA + idx`, inside
`[OPA, OPA + LEN)`, and at a `Readable` address. -/
def Obligations.ReadsStayInsideTheBuffer : Prop :=
  ∀ s t : State, step s = .next t → t.reads = s.reads ∨
    ∃ i, s.phase = .run ∧ decode s.cmd = .command i ∧ i.family ≠ .reflect ∧ s.idx.toNat < i.operands.len.toNat ∧
      (s.mem.read (i.operands.opa.toNat + s.idx.toNat)).isSome = true ∧
      t.reads = s.reads ++ [i.operands.opa.toNat + s.idx.toNat]

/-- The frame of the nine commands (R82, R84, R86, R88): what a command's step leaves unchanged. No command touches the host's
side, the environment, the received results or the data space. ACCEPT leaves `RES` and the reads; BYTE leaves `phase`, `CMD` and
`RES`; FINAL leaves `CMD`, `R`, `idx` and the reads; in DONE nothing changes. -/
def Obligations.CommandStepFrame : Prop :=
  ∀ (i : Instr) (s t : State), exec i s = .next t →
    (t.offers = s.offers ∧ t.takes = s.takes ∧ t.env = s.env ∧ t.taken = s.taken ∧ t.draws = s.draws) ∧
    (∀ a, t.mem.read a = s.mem.read a) ∧
    (s.phase = .idle → t.res = s.res ∧ t.reads = s.reads) ∧
    (s.phase = .run ∧ s.idx.toNat < effLen i → t.phase = s.phase ∧ t.cmd = s.cmd ∧ t.res = s.res) ∧
    (s.phase = .run ∧ effLen i ≤ s.idx.toNat → t.cmd = s.cmd ∧ t.r = s.r ∧ t.idx = s.idx ∧ t.reads = s.reads) ∧
    (s.phase = .done → t = s)

/-- A write by the owner of the data space makes the address it writes `Readable` with the byte written, and changes no other byte and
nothing of the engine or the host. That a write makes an address readable that was not is the model's choice (DESIGN CHOICE, entry 2 of
the assumption log; the nearest sentence is R164 (1)); that a write changes what later reads give is R40 and R54. -/
def Obligations.EnvironmentStoreChangesOneByte : Prop :=
  ∀ (s : State) (a : Word) (b : Byte) (later : List EnvEvent), s.env = .store a b :: later →
    ∃ m, step s = .next { s with env := later, mem := m } ∧ m.read a.toNat = some b ∧
      ∀ x, x ≠ a.toNat → m.read x = s.mem.read x

/-- Withdrawing an address makes that one address unreadable, and changes nothing of the engine or the host. The event and its effect are
the model's choice (DESIGN CHOICE, entry 2 of the assumption log); the nearest sentence is R53 (d), which forbids the host to make an
address of a running command's buffer "not `Readable`". -/
def Obligations.EnvironmentWithdrawalHidesOneByte : Prop :=
  ∀ (s : State) (a : Word) (later : List EnvEvent), s.env = .withdraw a :: later →
    ∃ m, step s = .next { s with env := later, mem := m } ∧ m.read a.toNat = none ∧
      ∀ x, x ≠ a.toNat → m.read x = s.mem.read x

/-! ### The invariant -/

/-- The invariant holds right after reset. -/
def Obligations.InvHoldsAtReset : Prop := Inv State.reset

/-- R25, R26: every step keeps the invariant: the data space stays in canonical form, in RUN a legal command is latched with
`R < 2^W` and `idx <= n_eff`, in DONE `RES < 2^W`. -/
def Obligations.StepKeepsInv : Prop := ∀ s t : State, Inv s → step s = .next t → Inv t

/-- R87, R140, R164: from a state of the invariant, with legal offers only and the next byte readable, every step answers a next
state: nothing faults and nothing is refused. -/
def Obligations.NoStopWhileTheHostKeepsItsDuties : Prop :=
  ∀ s : State, Inv s → offersLegal s → nextByteReadable s → ∃ t, step s = .next t

/-! ### Whole commands -/

/-- R91, R92, R44: a command offered to an idle engine, its buffer holding the bytes `d`, runs to its end in `n_eff + 3` steps
(ACCEPT, `n_eff` BYTE steps, FINAL, TAKE): the host receives `zext_32(F(DESC, d))`, and the reads are the buffer's addresses in
ascending order, each once. -/
def Obligations.WholeCommandDeliversItsResult : Prop :=
  ∀ (i : Instr) (d : List Byte) (s : State) (rest : List Desc) (k : Nat), i.wellFormed = true → s.phase = .idle →
    s.env = [] → s.offers = encode i :: rest → s.takes = k + 1 → bufferHolds i s.mem d →
    ∃ t, runFor (effLen i + 3) s = .next t ∧ t.phase = .idle ∧ t.taken = s.taken ++ [resultOf i d] ∧
      t.reads = s.reads ++ bufferAddresses i ∧ t.offers = rest ∧ t.takes = k ∧ t.mem = s.mem

/-- R53, R91: the same with an environment that acts while the command runs, but keeps off the command's buffer and causes no RESET:
however its events are interleaved, once they are over and the command has had its steps, the engine is in DONE with the result of
the bytes the buffer held at the start. -/
def Obligations.StableBufferGivesThePureResult : Prop :=
  ∀ (i : Instr) (d : List Byte) (s : State) (rest : List Desc), i.wellFormed = true → s.phase = .idle →
    quietFor i s.env → s.offers = encode i :: rest → s.takes = 0 → bufferHolds i s.mem d →
    ∃ t, runFor (s.env.length + effLen i + 2) s = .next t ∧ t.phase = .done ∧ t.res = resultOf i d ∧
      t.reads = s.reads ++ bufferAddresses i ∧ t.taken = s.taken

/-- R12, R32, R36: no hidden state: two states that differ only in what the phase's steps do not read go on alike: the same stop, or
next states that again differ only so. -/
def Obligations.LeftoversNeverMatter : Prop :=
  ∀ s t : State, sameButLeftovers s t →
    (∀ s', step s = .next s' → ∃ t', step t = .next t' ∧ sameButLeftovers s' t') ∧
    (∀ f, step s = .fault f → step t = .fault f) ∧ (∀ f, step s = .refused f → step t = .refused f)

/-! ### The checksum -/

/-- R101: `checksum_W(d) = (d_0 + ... + d_(n-1)) mod 2^W`. -/
def Obligations.ChecksumIsTheSumModulo : Prop :=
  ∀ (w : Width) (d : List Byte), (checksumOf w.bits d).toNat = (d.map BitVec.toNat).sum % 2 ^ w.bits

/-- R105 (b): the checksum of a concatenation is the sum of the checksums, modulo `2^W`. -/
def Obligations.ChecksumOfConcatenation : Prop :=
  ∀ (w : Width) (d e : List Byte), checksumOf w.bits (d ++ e) = checksumOf w.bits d + checksumOf w.bits e

/-- R105 (c): the checksum does not depend on the order of the bytes. -/
def Obligations.ChecksumIgnoresByteOrder : Prop :=
  ∀ (w : Width) (d e : List Byte), d.Perm e → checksumOf w.bits d = checksumOf w.bits e

/-- R105 (d): a narrower checksum is the low part of a wider one. -/
def Obligations.NarrowChecksumIsTheLowPart : Prop :=
  ∀ d : List Byte, checksumOf 8 d = (checksumOf 16 d).setWidth 8 ∧ checksumOf 16 d = (checksumOf 32 d).setWidth 16

/-! ### The reflection -/

/-- R110: `r[N-1-i] = v[i]`. -/
def Obligations.ReflectMovesBitToMirrorPosition : Prop :=
  ∀ (w : Width) (v : BitVec w.bits) (i : Nat), i < w.bits → (reflect v).getLsbD (w.bits - 1 - i) = v.getLsbD i

/-- R115, C5: reflecting twice gives the low N bits of the value. And what R115 marks as derived from R110: `reflect` is a bijection on
N-bit values, commutes with XOR, and fixes 0 and `2^N - 1`. -/
def Obligations.ReflectIsAnXorLinearInvolution : Prop :=
  ∀ w : Width,
    (∀ v : Word, zext (reflect (trunc w.bits (zext (reflect (trunc w.bits v))))) = zext (trunc w.bits v)) ∧
    Function.Bijective (reflect (n := w.bits)) ∧
    (∀ a b : BitVec w.bits, reflect (a ^^^ b) = reflect a ^^^ reflect b) ∧
    reflect (0 : BitVec w.bits) = 0 ∧ reflect (BitVec.allOnes w.bits) = BitVec.allOnes w.bits

/-! ### The CRC -/

/-- R122: the single-bit update on numbers: the doubled register modulo `2^W`, XORed with the polynomial when bit W-1 was set; and
bit 0 of the result is `poly[0]` then and 0 otherwise. -/
def Obligations.CrcBitShiftsAndMixes : Prop :=
  ∀ (w : Width) (r poly : BitVec w.bits),
    crcBit r poly = (if 2 ^ (w.bits - 1) ≤ r.toNat then BitVec.ofNat w.bits (2 * r.toNat) ^^^ poly
      else BitVec.ofNat w.bits (2 * r.toNat)) ∧
    (crcBit r poly).getLsbD 0 = (r.getLsbD (w.bits - 1) && poly.getLsbD 0)

/-- R121: the byte, reflected when `refin` is true, is mixed in at bits W-1 to W-8 (which cannot overflow), and the single-bit update
is applied 8 times. -/
def Obligations.CrcByteMixesThenUpdatesEightTimes : Prop :=
  ∀ (w : Width) (r poly : BitVec w.bits) (b0 : Byte) (refin : Bool),
    let b := if refin then reflect b0 else b0
    b.toNat * 2 ^ (w.bits - 8) < 2 ^ w.bits ∧
      crcByte r b0 refin poly = (fun x => crcBit x poly)^[8] (r ^^^ BitVec.ofNat w.bits (b.toNat * 2 ^ (w.bits - 8)))

/-- R124: the final XOR comes first and the output reflection second, so that with `refout` true the mask is reflected with the
register. -/
def Obligations.CrcFinalReflectsTheMask : Prop :=
  ∀ (w : Width) (r xorout : BitVec w.bits),
    crcFinal r xorout false = r ^^^ xorout ∧ crcFinal r xorout true = reflect (r ^^^ xorout) ∧
      crcFinal r xorout true = reflect r ^^^ reflect xorout

/-- R129: the CRC of no bytes: `init ^ xorout`, reflected as a whole when `refout` is true. -/
def Obligations.CrcOfNoBytes : Prop :=
  ∀ (w : Width) (p : CrcParams w.bits),
    crcOf p [] = if p.refout then reflect (p.init ^^^ p.xorout) else p.init ^^^ p.xorout

/-- R131: the usual catalogue order (reflect, then XOR) agrees with the engine's exactly when `refout` is false or the mask is its own
reflection; supplying the reflected mask gives the catalogue's result. -/
def Obligations.CatalogueOrderAgreesForPalindromicMasks : Prop :=
  ∀ (w : Width) (r xorout : BitVec w.bits) (refout : Bool),
    (crcFinal r xorout refout = (if refout then reflect r else r) ^^^ xorout ↔ refout = false ∨ reflect xorout = xorout) ∧
    crcFinal r (reflect xorout) true = reflect r ^^^ xorout

/-- R133 (a): for a fixed polynomial and `refin`, a byte step is linear over XOR. -/
def Obligations.CrcByteIsXorLinear : Prop :=
  ∀ (w : Width) (r q poly : BitVec w.bits) (b c : Byte) (refin : Bool),
    crcByte (r ^^^ q) (b ^^^ c) refin poly = crcByte r b refin poly ^^^ crcByte q c refin poly

/-- R133 (c): the CRC of the one byte `0x01`, with everything else off, is the polynomial. -/
def Obligations.CrcOfOneIsThePolynomial : Prop :=
  ∀ (w : Width) (poly : BitVec w.bits),
    crcOf { poly := poly, init := 0, refin := false, refout := false, xorout := 0 } [0x01] = poly

/-- R133 (d): leading zero bytes do not change a CRC whose initial value is 0. -/
def Obligations.LeadingZeroBytesLeaveNoTrace : Prop :=
  ∀ (w : Width) (p : CrcParams w.bits) (k : Nat) (d : List Byte), p.init = 0 →
    crcOf p (List.replicate k 0 ++ d) = crcOf p d

/-- From R121, R122 and R123, for all three widths: with `poly = 0` a byte step shifts the old register left by 8 and the new byte is
lost. (The corner cases of R126 and R127 say it at W = 8 and W = 16.) -/
def Obligations.ZeroPolynomialShiftsTheRegisterOut : Prop :=
  ∀ (w : Width) (r : BitVec w.bits) (b : Byte) (refin : Bool),
    crcByte r b refin 0 = BitVec.ofNat w.bits (2 ^ 8 * r.toNat)

/-- R132 (for configurations with `xorout = 0` and no reflection, as section 5 of spec/95_test_vectors.md works it): appending the
check value, most significant byte first, makes the CRC zero. -/
def Obligations.AppendedCheckValueLeavesZero : Prop :=
  ∀ (w : Width) (poly init : BitVec w.bits) (d : List Byte),
    let p : CrcParams w.bits := { poly := poly, init := init, refin := false, refout := false, xorout := 0 }
    crcOf p (d ++ (List.range (w.bits / 8)).map fun k => (crcOf p d).extractLsb' (w.bits - 8 - 8 * k) 8) = 0

/-- R67, R70: a command's result depends on the low W bits of POLY, INIT and XOROUT (CRC) or OPA (REFLECT) only, and not on the
words the command does not use. -/
def Obligations.ResultIgnoresUnusedOperandBits : Prop :=
  ∀ (o p : Operands) (d : List Byte) (refin refout : Bool),
    (resultOf (.checksum8 o) d = resultOf (.checksum8 p) d ∧ resultOf (.checksum16 o) d = resultOf (.checksum16 p) d ∧
      resultOf (.checksum32 o) d = resultOf (.checksum32 p) d) ∧
    (trunc 8 o.opa = trunc 8 p.opa → resultOf (.reflectBits8 o) d = resultOf (.reflectBits8 p) d) ∧
    (trunc 16 o.opa = trunc 16 p.opa → resultOf (.reflectBits16 o) d = resultOf (.reflectBits16 p) d) ∧
    (trunc 8 o.poly = trunc 8 p.poly ∧ trunc 8 o.init = trunc 8 p.init ∧ trunc 8 o.xorout = trunc 8 p.xorout →
      resultOf (.crc8 refin refout o) d = resultOf (.crc8 refin refout p) d) ∧
    (trunc 16 o.poly = trunc 16 p.poly ∧ trunc 16 o.init = trunc 16 p.init ∧ trunc 16 o.xorout = trunc 16 p.xorout →
      resultOf (.crc16 refin refout o) d = resultOf (.crc16 refin refout p) d)

/-! ### Several engines -/

/-- R149: a step of a system changes no engine but the one whose turn it is, and that engine, while its own step answers a next state,
takes the step it would take alone over the shared data space; a turn of an engine that does not exist changes nothing. -/
def Obligations.EnginesShareNothingButMemory : Prop :=
  ∀ (y : System) (k : Nat) (rest : List Nat), y.turns = k :: rest →
    (systemStep y).engines.length = y.engines.length ∧ (systemStep y).turns = rest ∧
    (∀ j, j ≠ k → (systemStep y).engines[j]? = y.engines[j]?) ∧
    (∀ e x s, y.engines[k]? = some e → e.status = .working x → step (e.over x y.mem) = .next s →
      (systemStep y).engines[k]? = some s.engine ∧ (systemStep y).mem = s.mem) ∧
    (y.engines[k]? = none → (systemStep y).engines = y.engines ∧ (systemStep y).mem = y.mem)

/-- R149: two engines, neither with an event of its environment pending, may run in either order, whatever they do, a stop of one of
them included: "reads do not interfere". -/
def Obligations.EnginesCommute : Prop :=
  ∀ (y : System) (j k : Nat), j ≠ k → (∀ e, y.engines[j]? = some e → e.env = []) →
    (∀ e, y.engines[k]? = some e → e.env = []) →
    systemStep (systemStep { y with turns := [j, k] }) = systemStep (systemStep { y with turns := [k, j] })

/-- R149, with R83, U1, U2 and U3: where an engine's own step has no outcome, that engine alone stops, under the name of its stop; every
other engine and the data space are as before, and the system goes on. That the stopped engine is marked, and how, is the model's
choice (DESIGN CHOICE, entry 13 of the assumption log). -/
def Obligations.StopOfOneEngineTouchesNoOther : Prop :=
  ∀ (y : System) (k : Nat) (rest : List Nat) (e : Engine) (x : Elements), y.turns = k :: rest → y.engines[k]? = some e →
    e.status = .working x →
    (∀ f, step (e.over x y.mem) = .fault f → ∃ e', (systemStep y).engines[k]? = some e' ∧ e'.status = .stopped (.fault f)) ∧
    (∀ f, step (e.over x y.mem) = .refused f → ∃ e', (systemStep y).engines[k]? = some e' ∧ e'.status = .stopped (.refused f)) ∧
    ((∀ s, step (e.over x y.mem) ≠ .next s) →
      (systemStep y).mem = y.mem ∧ (systemStep y).turns = rest ∧ ∀ j, j ≠ k → (systemStep y).engines[j]? = y.engines[j]?)

/-- U1 ("until a RESET"), R160: a stopped engine stays stopped until a RESET, receives and reads nothing meanwhile, and a RESET makes it
idle, with free values of which nothing is claimed. That it stands still while it is stopped is the model's choice (DESIGN CHOICE,
entry 13 of the assumption log). -/
def Obligations.OnlyResetRevivesAStoppedEngine : Prop :=
  ∀ (e : Engine) (m : Memory) (why : Stop), e.status = .stopped why →
    (e.env.head? ≠ some .reset →
      (engineStep e m).1.status = .stopped why ∧ (engineStep e m).1.taken = e.taken ∧ (engineStep e m).1.reads = e.reads) ∧
    (∀ later, e.env = .reset :: later →
      ∃ x n, engineStep e m = ({ e with status := .working x, env := later, draws := n }, m) ∧ x.phase = .idle)

/-- R149: in a system without pending events of the environment, an engine that has had its turns of a whole schedule is where it would
be after as many steps alone over the same data space, whatever the other engines did and however the turns were interleaved. -/
def Obligations.EveryEngineRunsAsIfAlone : Prop :=
  ∀ (y : System) (j : Nat) (e : Engine), (∀ f ∈ y.engines, f.env = []) → y.engines[j]? = some e →
    (systemStep^[y.turns.length] y).engines[j]? = some ((fun f => (engineStep f y.mem).1)^[y.turns.count j] e) ∧
    (systemStep^[y.turns.length] y).mem = y.mem
end

