-- ==== Sys2Proof/Laws/Decode.lean ====
section
/-! SUPPORT. The words and fields of a descriptor that the encoder made, for the proofs that decoding and encoding agree. -/

namespace Sys2Proof

/-- Bit `k` of word `j` of a descriptor is its bit `32 j + k` (R61). -/
theorem descWord_getLsbD (d : Desc) (j k : Nat) (h : k < 32) : (descWord d j).getLsbD k = d.getLsbD (32 * j + k) := by
  simp [descWord, h]

/-- A word is zero where another word is placed, and the placed one where it is placed. -/
theorem descWord_placeWord (v : Word) (j i : Nat) (hi : i < 6) : descWord (placeWord j v) i = if j = i then v else 0 := by
  apply BitVec.eq_of_getLsbD_eq
  intro k hk
  rw [descWord_getLsbD _ _ _ hk]
  simp only [placeWord, BitVec.getLsbD_shiftLeft, BitVec.getLsbD_setWidth]
  rcases Nat.lt_trichotomy j i with h | h | h
  · rw [if_neg (by omega), BitVec.getLsbD_of_ge v _ (by omega)]
    simp
  · subst h
    have h1 : 32 * j + k < 192 := by omega
    have h2 : k < 192 := by omega
    simp [h1, h2]
  · rw [if_neg (by omega)]
    have h1 : 32 * i + k < 32 * j := by omega
    simp [h1]

theorem descWord_or (d e : Desc) (i : Nat) : descWord (d ||| e) i = descWord d i ||| descWord e i := by
  apply BitVec.eq_of_getLsbD_eq
  intro k hk
  rw [descWord_getLsbD _ _ _ hk, BitVec.getLsbD_or, BitVec.getLsbD_or, descWord_getLsbD _ _ _ hk, descWord_getLsbD _ _ _ hk]

/-- Word 0 of an encoded descriptor is its `CTRL`. -/
@[simp] theorem ctrlOf_mkDesc (c : Word) (o : Operands) : ctrlOf (mkDesc c o) = c := by
  simp [ctrlOf, mkDesc, descWord_or, descWord_placeWord]

/-- Words 1 to 5 of an encoded descriptor are its operands. -/
@[simp] theorem operandsOf_mkDesc (c : Word) (o : Operands) : operandsOf (mkDesc c o) = o := by
  simp [operandsOf, mkDesc, descWord_or, descWord_placeWord]

/-- Descriptors with the same six words are the same. -/
theorem desc_ext {d e : Desc} (h : ∀ i < 6, descWord d i = descWord e i) : d = e := by
  apply BitVec.eq_of_getLsbD_eq
  intro k hk
  have := congrArg (·.getLsbD (k % 32)) (h (k / 32) (by omega))
  simp only [descWord_getLsbD _ _ _ (Nat.mod_lt k (by decide : 0 < 32))] at this
  rwa [Nat.div_add_mod] at this

/-- A descriptor is made of its six words (R61). -/
@[simp] theorem mkDesc_words (d : Desc) : mkDesc (ctrlOf d) (operandsOf d) = d := by
  apply desc_ext
  intro i hi
  simp only [mkDesc, descWord_or, descWord_placeWord _ _ _ hi, ctrlOf, operandsOf]
  interval_cases i <;> simp

@[simp] theorem ctrlOf_encode (i : Instr) : ctrlOf (encode i) = mkCtrl i.family i.width i.refin i.refout := by
  simp [encode]

@[simp] theorem operandsOf_encode (i : Instr) : operandsOf (encode i) = i.operands := by
  simp [encode]

/-- A `CTRL` word the encoder makes is reserved only with a reflection bit set outside the CRC family (R65). -/
theorem isReserved_mkCtrl (f : Family) (w : Width) (refin refout : Bool) :
    isReserved (mkCtrl f w refin refout) = (f != .crc && (refin || refout)) := by
  cases f <;> cases w <;> cases refin <;> cases refout <;> decide

/-- No descriptor the encoder makes is reserved. -/
@[simp] theorem isReserved_encode (i : Instr) : isReserved (ctrlOf (encode i)) = false := by
  rw [ctrlOf_encode, isReserved_mkCtrl]
  cases i <;> rfl

/-- What a verdict `command i` says: the `CTRL` word is not reserved, the selected row gives `i`, and `i` is in range. -/
theorem decode_command {d : Desc} {i : Instr} (h : decode d = .command i) :
    isReserved (ctrlOf d) = false ∧ commandOf (ctrlOf d) (operandsOf d) = some i ∧ i.wellFormed = true := by
  unfold decode at h
  split at h
  · cases h
  · split at h
    · cases h
    · split at h
      · cases h
        exact ⟨by simpa using ‹¬isReserved (ctrlOf d) = true›, ‹_›, ‹_›⟩
      · cases h

/-- Each verdict of the decoder, from its three parts. -/
theorem decode_of_commandOf {d : Desc} {i : Instr} (hr : isReserved (ctrlOf d) = false)
    (hc : commandOf (ctrlOf d) (operandsOf d) = some i) :
    decode d = if i.wellFormed then .command i else .outOfRange := by
  simp [decode, hr, hc]

/-- What well-formedness says of a command that reads a buffer (R45). -/
theorem wellFormed_iff_range {i : Instr} (h : i.family ≠ .reflect) :
    i.wellFormed = true ↔ i.operands.opa.toNat + i.operands.len.toNat ≤ 2 ^ 32 := by
  unfold Instr.wellFormed Operands.inRange Config.addressCount
  cases hf : i.family <;> simp_all

/-- A reflection is always well-formed (R70: it ignores `LEN`). -/
theorem wellFormed_of_reflect {i : Instr} (h : i.family = .reflect) : i.wellFormed = true := by
  simp [Instr.wellFormed, h]

end Sys2Proof
end

