-- ==== Sys2Proof/Laws/Memory.lean ====
section
/-! SUPPORT. The laws of the data space: a read after a write, and the canonical form that every operation keeps. -/

namespace Sys2Proof.Machine

@[simp] theorem Memory.read_nil (a : Nat) : Memory.read [] a = none := rfl

theorem Memory.read_cons (x : Nat) (y : Byte) (m : Memory) (a : Nat) :
    Memory.read ((x, y) :: m) a = if x = a then some y else Memory.read m a := rfl

theorem Memory.drop_cons (x : Nat) (y : Byte) (m : Memory) (a : Nat) :
    Memory.drop ((x, y) :: m) a = if x = a then Memory.drop m a else (x, y) :: Memory.drop m a := by
  by_cases h : x = a <;> simp [Memory.drop, h]

/-- A byte written is read back. -/
@[simp] theorem Memory.read_put_same (m : Memory) (a : Nat) (b : Byte) : (m.put a b).read a = some b := by
  induction m with
  | nil => simp [Memory.put, Memory.read]
  | cons c m ih =>
    obtain ⟨x, y⟩ := c
    simp only [Memory.put]
    split
    · simp [Memory.read]
    · split
      · simp [Memory.read]
      · rw [Memory.read_cons, if_neg ‹_›]
        exact ih

/-- A write leaves every other address alone. -/
theorem Memory.read_put_other (m : Memory) {a a' : Nat} (b : Byte) (h : a' ≠ a) : (m.put a b).read a' = m.read a' := by
  induction m with
  | nil => simp [Memory.put, Memory.read, Ne.symm h]
  | cons c m ih =>
    obtain ⟨x, y⟩ := c
    simp only [Memory.put]
    split
    · simp [Memory.read_cons, Ne.symm h]
    · split
      · subst x
        simp [Memory.read_cons, Ne.symm h]
      · simp only [Memory.read_cons, ih]

/-- A withdrawn address is not `Readable`. -/
@[simp] theorem Memory.read_drop_same (m : Memory) (a : Nat) : (m.drop a).read a = none := by
  induction m with
  | nil => rfl
  | cons c m ih =>
    obtain ⟨x, y⟩ := c
    rw [Memory.drop_cons]
    split
    · exact ih
    · rw [Memory.read_cons, if_neg ‹_›]
      exact ih

/-- A withdrawal leaves every other address alone. -/
theorem Memory.read_drop_other (m : Memory) {a a' : Nat} (h : a' ≠ a) : (m.drop a).read a' = m.read a' := by
  induction m with
  | nil => rfl
  | cons c m ih =>
    obtain ⟨x, y⟩ := c
    rw [Memory.drop_cons]
    split
    · subst x
      rw [ih, Memory.read_cons, if_neg (Ne.symm h)]
    · rw [Memory.read_cons, Memory.read_cons, ih]

/-- Every cell of a data space after a write is the written one or an old one. -/
theorem Memory.mem_put {m : Memory} {a : Nat} {b : Byte} {c : Host.Cell} (h : c ∈ m.put a b) : c = (a, b) ∨ c ∈ m := by
  induction m with
  | nil => simpa [Memory.put] using h
  | cons d m ih =>
    obtain ⟨x, y⟩ := d
    simp only [Memory.put] at h
    split at h
    · simpa using h
    · split at h
      · rcases List.mem_cons.1 h with h | h
        · exact .inl h
        · exact .inr (List.mem_cons_of_mem _ h)
      · rcases List.mem_cons.1 h with h | h
        · exact .inr (h ▸ List.mem_cons_self)
        · exact (ih h).imp id (List.mem_cons_of_mem _)

/-- The empty data space is in canonical form. -/
@[simp] theorem Memory.wf_nil : Memory.wf [] := by simp [Memory.wf]

/-- A write keeps the canonical form. -/
theorem Memory.wf_put {m : Memory} (h : m.wf) {a : Nat} (ha : a < Config.addressCount) (b : Byte) : (m.put a b).wf := by
  refine ⟨?_, fun c hc => (Memory.mem_put hc).elim (fun e => e ▸ ha) (h.2 c)⟩
  have hp := h.1
  clear h
  induction m with
  | nil => simp [Memory.put]
  | cons d m ih =>
    obtain ⟨x, y⟩ := d
    rw [List.pairwise_cons] at hp
    simp only [Memory.put]
    split
    · refine List.pairwise_cons.2 ⟨fun c hc => ?_, List.pairwise_cons.2 hp⟩
      rcases List.mem_cons.1 hc with rfl | hc
      · simpa
      · have := hp.1 c hc
        simp only at this ⊢
        omega
    · split
      · subst x
        exact List.pairwise_cons.2 hp
      · refine List.pairwise_cons.2 ⟨fun c hc => ?_, ih hp.2⟩
        rcases Memory.mem_put hc with rfl | hc
        · simp only
          omega
        · exact hp.1 c hc

/-- A withdrawal keeps the canonical form. -/
theorem Memory.wf_drop {m : Memory} (h : m.wf) (a : Nat) : (m.drop a).wf :=
  ⟨h.1.filter _, fun c hc => h.2 c (List.mem_of_mem_filter hc)⟩

/-- In a data space in canonical form, every address that has a byte is an address of the data space. -/
theorem Memory.wf_read_lt {m : Memory} (h : m.wf) {a : Nat} {b : Byte} (hr : m.read a = some b) :
    a < Config.addressCount := by
  have h2 := h.2
  clear h
  induction m with
  | nil => simp at hr
  | cons c m ih =>
    obtain ⟨x, y⟩ := c
    rw [Memory.read_cons] at hr
    split at hr
    · subst x
      exact h2 _ List.mem_cons_self
    · exact ih hr fun c hc => h2 c (List.mem_cons_of_mem _ hc)

/-- Data spaces in canonical form that read alike are the same data. -/
theorem Memory.wf_ext {m m' : Memory} (h : m.wf) (h' : m'.wf) (e : ∀ a, m.read a = m'.read a) : m = m' := by
  have below : ∀ {m : Memory} {x : Nat}, (∀ c ∈ m, x < c.1) → m.read x = none := by
    intro m x hm
    induction m with
    | nil => rfl
    | cons c m ih =>
      obtain ⟨z, w⟩ := c
      have hz := hm (z, w) List.mem_cons_self
      rw [Memory.read_cons, if_neg (by simp only at hz; omega)]
      exact ih fun c hc => hm c (List.mem_cons_of_mem _ hc)
  replace h := h.1
  replace h' := h'.1
  induction m generalizing m' with
  | nil =>
    cases m' with
    | nil => rfl
    | cons c m' =>
      obtain ⟨x, y⟩ := c
      simpa [Memory.read_cons] using e x
  | cons c m ih =>
    obtain ⟨x, y⟩ := c
    cases m' with
    | nil => simpa [Memory.read_cons] using e x
    | cons c' m' =>
      obtain ⟨x', y'⟩ := c'
      rw [List.pairwise_cons] at h h'
      have hx : x = x' := by
        rcases Nat.lt_trichotomy x x' with hlt | heq | hlt
        · have := e x
          rw [below (m := (x', y') :: m') (by
            intro c hc
            rcases List.mem_cons.1 hc with rfl | hc
            · exact hlt
            · exact Nat.lt_trans hlt (h'.1 c hc))] at this
          simp [Memory.read_cons] at this
        · exact heq
        · have := e x'
          rw [below (m := (x, y) :: m) (by
            intro c hc
            rcases List.mem_cons.1 hc with rfl | hc
            · exact hlt
            · exact Nat.lt_trans hlt (h.1 c hc))] at this
          simp [Memory.read_cons] at this
      subst x'
      have hy : y = y' := by simpa [Memory.read_cons] using e x
      subst y'
      refine congrArg _ (ih (fun a => ?_) h.2 h'.2)
      by_cases ha : a = x
      · subst a
        rw [below h.1, below h'.1]
      · simpa [Memory.read_cons, Ne.symm ha] using e a

end Sys2Proof.Machine
end

