-- ==== Sys2Proof/Laws/State.lean ====
section
/-! SUPPORT. What each update of the state does to each field, so that no proof unfolds a record update. -/

namespace Sys2Proof.Machine

@[simp] theorem State.accept_phase (s : State) (d : Desc) (load : Word) :
    (s.accept d load).phase = .run := rfl
@[simp] theorem State.accept_cmd (s : State) (d : Desc) (load : Word) :
    (s.accept d load).cmd = d := rfl
@[simp] theorem State.accept_r (s : State) (d : Desc) (load : Word) :
    (s.accept d load).r = load := rfl
@[simp] theorem State.accept_idx (s : State) (d : Desc) (load : Word) :
    (s.accept d load).idx = 0 := rfl
@[simp] theorem State.accept_res (s : State) (d : Desc) (load : Word) :
    (s.accept d load).res = s.res := rfl
@[simp] theorem State.accept_mem (s : State) (d : Desc) (load : Word) :
    (s.accept d load).mem = s.mem := rfl
@[simp] theorem State.accept_offers (s : State) (d : Desc) (load : Word) :
    (s.accept d load).offers = s.offers := rfl
@[simp] theorem State.accept_takes (s : State) (d : Desc) (load : Word) :
    (s.accept d load).takes = s.takes := rfl
@[simp] theorem State.accept_env (s : State) (d : Desc) (load : Word) :
    (s.accept d load).env = s.env := rfl
@[simp] theorem State.accept_taken (s : State) (d : Desc) (load : Word) :
    (s.accept d load).taken = s.taken := rfl
@[simp] theorem State.accept_reads (s : State) (d : Desc) (load : Word) :
    (s.accept d load).reads = s.reads := rfl
@[simp] theorem State.accept_draws (s : State) (d : Desc) (load : Word) :
    (s.accept d load).draws = s.draws := rfl

@[simp] theorem State.consume_phase (s : State) (a : Nat) (x : Word) :
    (s.consume a x).phase = s.phase := rfl
@[simp] theorem State.consume_cmd (s : State) (a : Nat) (x : Word) :
    (s.consume a x).cmd = s.cmd := rfl
@[simp] theorem State.consume_r (s : State) (a : Nat) (x : Word) :
    (s.consume a x).r = x := rfl
@[simp] theorem State.consume_idx (s : State) (a : Nat) (x : Word) :
    (s.consume a x).idx = s.idx + 1 := rfl
@[simp] theorem State.consume_res (s : State) (a : Nat) (x : Word) :
    (s.consume a x).res = s.res := rfl
@[simp] theorem State.consume_mem (s : State) (a : Nat) (x : Word) :
    (s.consume a x).mem = s.mem := rfl
@[simp] theorem State.consume_offers (s : State) (a : Nat) (x : Word) :
    (s.consume a x).offers = s.offers := rfl
@[simp] theorem State.consume_takes (s : State) (a : Nat) (x : Word) :
    (s.consume a x).takes = s.takes := rfl
@[simp] theorem State.consume_env (s : State) (a : Nat) (x : Word) :
    (s.consume a x).env = s.env := rfl
@[simp] theorem State.consume_taken (s : State) (a : Nat) (x : Word) :
    (s.consume a x).taken = s.taken := rfl
@[simp] theorem State.consume_reads (s : State) (a : Nat) (x : Word) :
    (s.consume a x).reads = s.reads ++ [a] := rfl
@[simp] theorem State.consume_draws (s : State) (a : Nat) (x : Word) :
    (s.consume a x).draws = s.draws := rfl

@[simp] theorem State.final_phase (s : State) (x : Word) :
    (s.final x).phase = .done := rfl
@[simp] theorem State.final_cmd (s : State) (x : Word) :
    (s.final x).cmd = s.cmd := rfl
@[simp] theorem State.final_r (s : State) (x : Word) :
    (s.final x).r = s.r := rfl
@[simp] theorem State.final_idx (s : State) (x : Word) :
    (s.final x).idx = s.idx := rfl
@[simp] theorem State.final_res (s : State) (x : Word) :
    (s.final x).res = x := rfl
@[simp] theorem State.final_mem (s : State) (x : Word) :
    (s.final x).mem = s.mem := rfl
@[simp] theorem State.final_offers (s : State) (x : Word) :
    (s.final x).offers = s.offers := rfl
@[simp] theorem State.final_takes (s : State) (x : Word) :
    (s.final x).takes = s.takes := rfl
@[simp] theorem State.final_env (s : State) (x : Word) :
    (s.final x).env = s.env := rfl
@[simp] theorem State.final_taken (s : State) (x : Word) :
    (s.final x).taken = s.taken := rfl
@[simp] theorem State.final_reads (s : State) (x : Word) :
    (s.final x).reads = s.reads := rfl
@[simp] theorem State.final_draws (s : State) (x : Word) :
    (s.final x).draws = s.draws := rfl

@[simp] theorem State.deliver_phase (s : State) :
    (s.deliver).phase = .idle := rfl
@[simp] theorem State.deliver_cmd (s : State) :
    (s.deliver).cmd = s.cmd := rfl
@[simp] theorem State.deliver_r (s : State) :
    (s.deliver).r = s.r := rfl
@[simp] theorem State.deliver_idx (s : State) :
    (s.deliver).idx = s.idx := rfl
@[simp] theorem State.deliver_res (s : State) :
    (s.deliver).res = s.res := rfl
@[simp] theorem State.deliver_mem (s : State) :
    (s.deliver).mem = s.mem := rfl
@[simp] theorem State.deliver_offers (s : State) :
    (s.deliver).offers = s.offers := rfl
@[simp] theorem State.deliver_takes (s : State) :
    (s.deliver).takes = s.takes := rfl
@[simp] theorem State.deliver_env (s : State) :
    (s.deliver).env = s.env := rfl
@[simp] theorem State.deliver_taken (s : State) :
    (s.deliver).taken = s.taken ++ [s.res] := rfl
@[simp] theorem State.deliver_reads (s : State) :
    (s.deliver).reads = s.reads := rfl
@[simp] theorem State.deliver_draws (s : State) :
    (s.deliver).draws = s.draws := rfl

@[simp] theorem State.resetEngine_phase (s : State) :
    (s.resetEngine).phase = .idle := rfl
@[simp] theorem State.resetEngine_cmd (s : State) :
    (s.resetEngine).cmd = Config.resetCmd s.draws := rfl
@[simp] theorem State.resetEngine_r (s : State) :
    (s.resetEngine).r = Config.resetR s.draws := rfl
@[simp] theorem State.resetEngine_idx (s : State) :
    (s.resetEngine).idx = Config.resetIdx s.draws := rfl
@[simp] theorem State.resetEngine_res (s : State) :
    (s.resetEngine).res = Config.resetRes s.draws := rfl
@[simp] theorem State.resetEngine_mem (s : State) :
    (s.resetEngine).mem = s.mem := rfl
@[simp] theorem State.resetEngine_offers (s : State) :
    (s.resetEngine).offers = s.offers := rfl
@[simp] theorem State.resetEngine_takes (s : State) :
    (s.resetEngine).takes = s.takes := rfl
@[simp] theorem State.resetEngine_env (s : State) :
    (s.resetEngine).env = s.env := rfl
@[simp] theorem State.resetEngine_taken (s : State) :
    (s.resetEngine).taken = s.taken := rfl
@[simp] theorem State.resetEngine_reads (s : State) :
    (s.resetEngine).reads = s.reads := rfl
@[simp] theorem State.resetEngine_draws (s : State) :
    (s.resetEngine).draws = s.draws + 1 := rfl

@[simp] theorem State.offering_phase (s : State) (d : Desc) :
    (s.offering d).phase = .idle := rfl
@[simp] theorem State.offering_cmd (s : State) (d : Desc) :
    (s.offering d).cmd = s.cmd := rfl
@[simp] theorem State.offering_r (s : State) (d : Desc) :
    (s.offering d).r = s.r := rfl
@[simp] theorem State.offering_idx (s : State) (d : Desc) :
    (s.offering d).idx = s.idx := rfl
@[simp] theorem State.offering_res (s : State) (d : Desc) :
    (s.offering d).res = s.res := rfl
@[simp] theorem State.offering_mem (s : State) (d : Desc) :
    (s.offering d).mem = s.mem := rfl
@[simp] theorem State.offering_offers (s : State) (d : Desc) :
    (s.offering d).offers = d :: s.offers := rfl
@[simp] theorem State.offering_takes (s : State) (d : Desc) :
    (s.offering d).takes = s.takes := rfl
@[simp] theorem State.offering_env (s : State) (d : Desc) :
    (s.offering d).env = .turn :: s.env := rfl
@[simp] theorem State.offering_taken (s : State) (d : Desc) :
    (s.offering d).taken = s.taken := rfl
@[simp] theorem State.offering_reads (s : State) (d : Desc) :
    (s.offering d).reads = s.reads := rfl
@[simp] theorem State.offering_draws (s : State) (d : Desc) :
    (s.offering d).draws = s.draws := rfl

@[simp] theorem State.setOffers_phase (s : State) (l : List Desc) :
    (s.setOffers l).phase = s.phase := rfl
@[simp] theorem State.setOffers_cmd (s : State) (l : List Desc) :
    (s.setOffers l).cmd = s.cmd := rfl
@[simp] theorem State.setOffers_r (s : State) (l : List Desc) :
    (s.setOffers l).r = s.r := rfl
@[simp] theorem State.setOffers_idx (s : State) (l : List Desc) :
    (s.setOffers l).idx = s.idx := rfl
@[simp] theorem State.setOffers_res (s : State) (l : List Desc) :
    (s.setOffers l).res = s.res := rfl
@[simp] theorem State.setOffers_mem (s : State) (l : List Desc) :
    (s.setOffers l).mem = s.mem := rfl
@[simp] theorem State.setOffers_offers (s : State) (l : List Desc) :
    (s.setOffers l).offers = l := rfl
@[simp] theorem State.setOffers_takes (s : State) (l : List Desc) :
    (s.setOffers l).takes = s.takes := rfl
@[simp] theorem State.setOffers_env (s : State) (l : List Desc) :
    (s.setOffers l).env = s.env := rfl
@[simp] theorem State.setOffers_taken (s : State) (l : List Desc) :
    (s.setOffers l).taken = s.taken := rfl
@[simp] theorem State.setOffers_reads (s : State) (l : List Desc) :
    (s.setOffers l).reads = s.reads := rfl
@[simp] theorem State.setOffers_draws (s : State) (l : List Desc) :
    (s.setOffers l).draws = s.draws := rfl

@[simp] theorem State.setTakes_phase (s : State) (k : Nat) :
    (s.setTakes k).phase = s.phase := rfl
@[simp] theorem State.setTakes_cmd (s : State) (k : Nat) :
    (s.setTakes k).cmd = s.cmd := rfl
@[simp] theorem State.setTakes_r (s : State) (k : Nat) :
    (s.setTakes k).r = s.r := rfl
@[simp] theorem State.setTakes_idx (s : State) (k : Nat) :
    (s.setTakes k).idx = s.idx := rfl
@[simp] theorem State.setTakes_res (s : State) (k : Nat) :
    (s.setTakes k).res = s.res := rfl
@[simp] theorem State.setTakes_mem (s : State) (k : Nat) :
    (s.setTakes k).mem = s.mem := rfl
@[simp] theorem State.setTakes_offers (s : State) (k : Nat) :
    (s.setTakes k).offers = s.offers := rfl
@[simp] theorem State.setTakes_takes (s : State) (k : Nat) :
    (s.setTakes k).takes = k := rfl
@[simp] theorem State.setTakes_env (s : State) (k : Nat) :
    (s.setTakes k).env = s.env := rfl
@[simp] theorem State.setTakes_taken (s : State) (k : Nat) :
    (s.setTakes k).taken = s.taken := rfl
@[simp] theorem State.setTakes_reads (s : State) (k : Nat) :
    (s.setTakes k).reads = s.reads := rfl
@[simp] theorem State.setTakes_draws (s : State) (k : Nat) :
    (s.setTakes k).draws = s.draws := rfl

@[simp] theorem State.setEnv_phase (s : State) (l : List EnvEvent) :
    (s.setEnv l).phase = s.phase := rfl
@[simp] theorem State.setEnv_cmd (s : State) (l : List EnvEvent) :
    (s.setEnv l).cmd = s.cmd := rfl
@[simp] theorem State.setEnv_r (s : State) (l : List EnvEvent) :
    (s.setEnv l).r = s.r := rfl
@[simp] theorem State.setEnv_idx (s : State) (l : List EnvEvent) :
    (s.setEnv l).idx = s.idx := rfl
@[simp] theorem State.setEnv_res (s : State) (l : List EnvEvent) :
    (s.setEnv l).res = s.res := rfl
@[simp] theorem State.setEnv_mem (s : State) (l : List EnvEvent) :
    (s.setEnv l).mem = s.mem := rfl
@[simp] theorem State.setEnv_offers (s : State) (l : List EnvEvent) :
    (s.setEnv l).offers = s.offers := rfl
@[simp] theorem State.setEnv_takes (s : State) (l : List EnvEvent) :
    (s.setEnv l).takes = s.takes := rfl
@[simp] theorem State.setEnv_env (s : State) (l : List EnvEvent) :
    (s.setEnv l).env = l := rfl
@[simp] theorem State.setEnv_taken (s : State) (l : List EnvEvent) :
    (s.setEnv l).taken = s.taken := rfl
@[simp] theorem State.setEnv_reads (s : State) (l : List EnvEvent) :
    (s.setEnv l).reads = s.reads := rfl
@[simp] theorem State.setEnv_draws (s : State) (l : List EnvEvent) :
    (s.setEnv l).draws = s.draws := rfl

@[simp] theorem State.setMem_phase (s : State) (m : Memory) :
    (s.setMem m).phase = s.phase := rfl
@[simp] theorem State.setMem_cmd (s : State) (m : Memory) :
    (s.setMem m).cmd = s.cmd := rfl
@[simp] theorem State.setMem_r (s : State) (m : Memory) :
    (s.setMem m).r = s.r := rfl
@[simp] theorem State.setMem_idx (s : State) (m : Memory) :
    (s.setMem m).idx = s.idx := rfl
@[simp] theorem State.setMem_res (s : State) (m : Memory) :
    (s.setMem m).res = s.res := rfl
@[simp] theorem State.setMem_mem (s : State) (m : Memory) :
    (s.setMem m).mem = m := rfl
@[simp] theorem State.setMem_offers (s : State) (m : Memory) :
    (s.setMem m).offers = s.offers := rfl
@[simp] theorem State.setMem_takes (s : State) (m : Memory) :
    (s.setMem m).takes = s.takes := rfl
@[simp] theorem State.setMem_env (s : State) (m : Memory) :
    (s.setMem m).env = s.env := rfl
@[simp] theorem State.setMem_taken (s : State) (m : Memory) :
    (s.setMem m).taken = s.taken := rfl
@[simp] theorem State.setMem_reads (s : State) (m : Memory) :
    (s.setMem m).reads = s.reads := rfl
@[simp] theorem State.setMem_draws (s : State) (m : Memory) :
    (s.setMem m).draws = s.draws := rfl

/-- A state is its engine, with its state elements, over its data space. -/
@[simp] theorem State.engine_over (s : State) : s.engine.over s.elements s.mem = s := rfl

@[simp] theorem State.elements_phase (s : State) : s.elements.phase = s.phase := rfl
@[simp] theorem State.elements_cmd (s : State) : s.elements.cmd = s.cmd := rfl
@[simp] theorem State.elements_r (s : State) : s.elements.r = s.r := rfl
@[simp] theorem State.elements_idx (s : State) : s.elements.idx = s.idx := rfl
@[simp] theorem State.elements_res (s : State) : s.elements.res = s.res := rfl

@[simp] theorem State.engine_status (s : State) : s.engine.status = .working s.elements := rfl
@[simp] theorem State.engine_offers (s : State) : s.engine.offers = s.offers := rfl
@[simp] theorem State.engine_takes (s : State) : s.engine.takes = s.takes := rfl
@[simp] theorem State.engine_env (s : State) : s.engine.env = s.env := rfl
@[simp] theorem State.engine_taken (s : State) : s.engine.taken = s.taken := rfl
@[simp] theorem State.engine_reads (s : State) : s.engine.reads = s.reads := rfl
@[simp] theorem State.engine_draws (s : State) : s.engine.draws = s.draws := rfl

/-- The state elements of an engine seen alone are the ones it was given. -/
@[simp] theorem Engine.over_elements (e : Engine) (x : Elements) (m : Memory) : (e.over x m).elements = x := rfl

@[simp] theorem Engine.over_mem (e : Engine) (x : Elements) (m : Memory) : (e.over x m).mem = m := rfl
@[simp] theorem Engine.over_phase (e : Engine) (x : Elements) (m : Memory) : (e.over x m).phase = x.phase := rfl
@[simp] theorem Engine.over_cmd (e : Engine) (x : Elements) (m : Memory) : (e.over x m).cmd = x.cmd := rfl
@[simp] theorem Engine.over_r (e : Engine) (x : Elements) (m : Memory) : (e.over x m).r = x.r := rfl
@[simp] theorem Engine.over_idx (e : Engine) (x : Elements) (m : Memory) : (e.over x m).idx = x.idx := rfl
@[simp] theorem Engine.over_res (e : Engine) (x : Elements) (m : Memory) : (e.over x m).res = x.res := rfl
@[simp] theorem Engine.over_offers (e : Engine) (x : Elements) (m : Memory) : (e.over x m).offers = e.offers := rfl
@[simp] theorem Engine.over_takes (e : Engine) (x : Elements) (m : Memory) : (e.over x m).takes = e.takes := rfl
@[simp] theorem Engine.over_env (e : Engine) (x : Elements) (m : Memory) : (e.over x m).env = e.env := rfl
@[simp] theorem Engine.over_taken (e : Engine) (x : Elements) (m : Memory) : (e.over x m).taken = e.taken := rfl
@[simp] theorem Engine.over_reads (e : Engine) (x : Elements) (m : Memory) : (e.over x m).reads = e.reads := rfl
@[simp] theorem Engine.over_draws (e : Engine) (x : Elements) (m : Memory) : (e.over x m).draws = e.draws := rfl

@[simp] theorem Engine.stop_status (e : Engine) (x : Elements) (why : Stop) : (e.stop x why).status = .stopped why := rfl
@[simp] theorem Engine.stop_env (e : Engine) (x : Elements) (why : Stop) : (e.stop x why).env = e.env.tail := rfl
@[simp] theorem Engine.stop_takes (e : Engine) (x : Elements) (why : Stop) : (e.stop x why).takes = e.takes := rfl
@[simp] theorem Engine.stop_taken (e : Engine) (x : Elements) (why : Stop) : (e.stop x why).taken = e.taken := rfl
@[simp] theorem Engine.stop_reads (e : Engine) (x : Elements) (why : Stop) : (e.stop x why).reads = e.reads := rfl
@[simp] theorem Engine.stop_draws (e : Engine) (x : Elements) (why : Stop) : (e.stop x why).draws = e.draws := rfl

/-- A stopped engine's RESET leaves the elements that any RESET leaves. -/
theorem State.resetEngine_elements (s : State) : s.resetEngine.elements = Elements.afterReset s.draws := rfl

end Sys2Proof.Machine
end

