-- ==== Sys2Proof/Laws/Exec.lean ====
section
/-! SUPPORT. What one step of a command can do, said once for all nine commands. -/

namespace Sys2Proof.Machine

/-- What ACCEPT loads into `R`, by command (R82). -/
def loadOf : Instr → Word
  | .checksum8 _ => 0
  | .checksum16 _ => 0
  | .checksum32 _ => 0
  | .reflectBits8 o => zext (valueOperand 8 o)
  | .reflectBits16 o => zext (valueOperand 16 o)
  | .reflectBits32 o => zext (valueOperand 32 o)
  | .crc8 _ _ o => zext (initOperand 8 o)
  | .crc16 _ _ o => zext (initOperand 16 o)
  | .crc32 _ _ o => zext (initOperand 32 o)

/-- What BYTE makes of `R` and the byte read, by command (R84). A reflection takes no BYTE step. -/
def updateOf : Instr → Word → Byte → Word
  | .checksum8 _, r, b => zext (sumStep (trunc 8 r) b)
  | .checksum16 _, r, b => zext (sumStep (trunc 16 r) b)
  | .checksum32 _, r, b => zext (sumStep (trunc 32 r) b)
  | .reflectBits8 _, r, _ => r
  | .reflectBits16 _, r, _ => r
  | .reflectBits32 _, r, _ => r
  | .crc8 refin _ o, r, b => zext (crcByte (trunc 8 r) b refin (polyOperand 8 o))
  | .crc16 refin _ o, r, b => zext (crcByte (trunc 16 r) b refin (polyOperand 16 o))
  | .crc32 refin _ o, r, b => zext (crcByte (trunc 32 r) b refin (polyOperand 32 o))

/-- What FINAL makes of `R`, by command (R86). -/
def finishOf : Instr → Word → Word
  | .checksum8 _, r => zext (trunc 8 r)
  | .checksum16 _, r => zext (trunc 16 r)
  | .checksum32 _, r => zext (trunc 32 r)
  | .reflectBits8 _, r => zext (reflect (trunc 8 r))
  | .reflectBits16 _, r => zext (reflect (trunc 16 r))
  | .reflectBits32 _, r => zext (reflect (trunc 32 r))
  | .crc8 _ refout o, r => zext (crcFinal (trunc 8 r) (xoroutOperand 8 o) refout)
  | .crc16 _ refout o, r => zext (crcFinal (trunc 16 r) (xoroutOperand 16 o) refout)
  | .crc32 _ refout o, r => zext (crcFinal (trunc 32 r) (xoroutOperand 32 o) refout)

/-- Every command runs through the shared steps. -/
theorem exec_eq_commandStep (i : Instr) (s : State) : exec i s = commandStep i (loadOf i) (updateOf i) (finishOf i) s := by
  cases i <;> rfl

/-- Whatever BYTE answers: the byte was `Readable` and was consumed, or it was not and the model faults (R42, R43, R84). -/
theorem byteStep_cases (i : Instr) (update : Word → Byte → Word) (s : State) :
    (∃ b, s.mem.read (byteAddress i s.idx.toNat) = some b ∧
      byteStep i update s = .next (s.consume (byteAddress i s.idx.toNat) (update s.r b))) ∨
    (s.mem.read (byteAddress i s.idx.toNat) = none ∧
      byteStep i update s = .fault (.unreadableByte (byteAddress i s.idx.toNat))) := by
  unfold byteStep
  cases h : s.mem.read (byteAddress i s.idx.toNat) with
  | none => exact .inr ⟨rfl, rfl⟩
  | some b => exact .inl ⟨b, rfl, rfl⟩

/-- If a step of a command answers a next state, it was ACCEPT, BYTE, FINAL, or a wait in DONE. -/
theorem exec_next_cases {i : Instr} {s t : State} (h : exec i s = .next t) :
    (s.phase = .idle ∧ i.wellFormed = true ∧ t = s.accept (encode i) (loadOf i)) ∨
    (s.phase = .run ∧ s.idx.toNat < effLen i ∧ ∃ b, s.mem.read (byteAddress i s.idx.toNat) = some b ∧
      t = s.consume (byteAddress i s.idx.toNat) (updateOf i s.r b)) ∨
    (s.phase = .run ∧ s.idx.toNat = effLen i ∧ t = s.final (finishOf i s.r)) ∨
    (s.phase = .done ∧ t = s) := by
  rw [exec_eq_commandStep, commandStep] at h
  split at h
  · split at h
    · cases h
      exact .inl ⟨‹_›, ‹_›, rfl⟩
    · cases h
  · split at h
    · rcases byteStep_cases i (updateOf i) s with ⟨b, hb, e⟩ | ⟨-, e⟩
      · rw [e] at h
        cases h
        exact .inr (.inl ⟨‹_›, ‹_›, b, hb, rfl⟩)
      · rw [e] at h
        cases h
    · split at h
      · cases h
        exact .inr (.inr (.inl ⟨‹_›, ‹_›, rfl⟩))
      · cases h
  · cases h
    exact .inr (.inr (.inr ⟨‹_›, rfl⟩))

/-- ACCEPT (R82). -/
theorem exec_accept {i : Instr} {s : State} (hp : s.phase = .idle) (hw : i.wellFormed = true) :
    exec i s = .next (s.accept (encode i) (loadOf i)) := by
  simp [exec_eq_commandStep, commandStep, hp, hw]

/-- BYTE (R84). -/
theorem exec_byte {i : Instr} {s : State} {b : Byte} (hp : s.phase = .run) (hi : s.idx.toNat < effLen i)
    (hb : s.mem.read (byteAddress i s.idx.toNat) = some b) :
    exec i s = .next (s.consume (byteAddress i s.idx.toNat) (updateOf i s.r b)) := by
  simp [exec_eq_commandStep, commandStep, hp, hi, byteStep, hb]

/-- FINAL (R86). -/
theorem exec_final {i : Instr} {s : State} (hp : s.phase = .run) (hi : s.idx.toNat = effLen i) :
    exec i s = .next (s.final (finishOf i s.r)) := by
  simp [exec_eq_commandStep, commandStep, hp, hi]

/-- The engine runs what the decoder reads. -/
theorem runDescriptor_command {d : Desc} {i : Instr} (h : decode d = .command i) (s : State) :
    runDescriptor d s = exec i s := by
  simp [runDescriptor, h]

/-- If a descriptor's step answers a next state, the descriptor is a command and it is that command's step. -/
theorem runDescriptor_next {d : Desc} {s t : State} (h : runDescriptor d s = .next t) :
    ∃ i, decode d = .command i ∧ exec i s = .next t := by
  unfold runDescriptor at h
  split at h
  · exact ⟨_, ‹_›, h⟩
  · cases h
  · cases h

/-- If a turn answers a next state, it was ACCEPT, BYTE, FINAL, TAKE, or the engine stood in IDLE or in DONE. -/
theorem engineTurn_next_cases {s t : State} (h : engineTurn s = .next t) :
    (s.phase = .idle ∧ ∃ d rest i, s.offers = d :: rest ∧ decode d = .command i ∧ i.wellFormed = true ∧
      t = (s.setOffers rest).accept (encode i) (loadOf i)) ∨
    (s.phase = .run ∧ ∃ i b, decode s.cmd = .command i ∧ s.idx.toNat < effLen i ∧
      s.mem.read (byteAddress i s.idx.toNat) = some b ∧
      t = s.consume (byteAddress i s.idx.toNat) (updateOf i s.r b)) ∨
    (s.phase = .run ∧ ∃ i, decode s.cmd = .command i ∧ s.idx.toNat = effLen i ∧ t = s.final (finishOf i s.r)) ∨
    (s.phase = .done ∧ ∃ k, s.takes = k + 1 ∧ t = (s.setTakes k).deliver) ∨
    ((s.phase = .idle ∧ s.offers = [] ∨ s.phase = .done ∧ s.takes = 0) ∧ t = s) := by
  unfold engineTurn at h
  split at h
  · rename_i hp
    unfold idleTurn at h
    split at h
    · obtain ⟨i, hd, he⟩ := runDescriptor_next h
      rcases exec_next_cases he with ⟨-, hw, rfl⟩ | ⟨hr, -⟩ | ⟨hr, -⟩ | ⟨hr, -⟩
      · exact .inl ⟨hp, _, _, i, ‹_›, hd, hw, rfl⟩
      all_goals simp [hp] at hr
    · cases h
      exact .inr (.inr (.inr (.inr ⟨.inl ⟨hp, ‹_›⟩, rfl⟩)))
  · rename_i hp
    obtain ⟨i, hd, he⟩ := runDescriptor_next h
    rcases exec_next_cases he with ⟨hr, -⟩ | ⟨-, hi, b, hb, rfl⟩ | ⟨-, hi, rfl⟩ | ⟨hr, -⟩
    · simp [hp] at hr
    · exact .inr (.inl ⟨hp, i, b, hd, hi, hb, rfl⟩)
    · exact .inr (.inr (.inl ⟨hp, i, hd, hi, rfl⟩))
    · simp [hp] at hr
  · rename_i hp
    unfold doneTurn at h
    split at h
    · cases h
      exact .inr (.inr (.inr (.inl ⟨hp, _, ‹_›, rfl⟩)))
    · cases h
      exact .inr (.inr (.inr (.inr ⟨.inr ⟨hp, ‹_›⟩, rfl⟩)))

/-- The step is a turn of the engine: no event is listed, or the first one is a turn; `rest` is what is listed after it. -/
def isTurn (s : State) (rest : List EnvEvent) : Prop := s.env = [] ∧ rest = [] ∨ s.env = .turn :: rest

/-- With no event listed, the step is the engine's turn. -/
theorem step_of_env_nil {s : State} (h : s.env = []) : step s = engineTurn s := by
  simp [step, nextStep, h]

/-- With an event listed, the step is that event. -/
theorem step_of_env_cons {s : State} {e : EnvEvent} {rest : List EnvEvent} (h : s.env = e :: rest) :
    step s = eventStep e (s.setEnv rest) := by
  simp [step, nextStep, h]

/-- A turn of the engine is `engineTurn`. -/
theorem step_of_isTurn {s : State} {rest : List EnvEvent} (h : isTurn s rest) : step s = engineTurn (s.setEnv rest) := by
  rcases h with ⟨h, rfl⟩ | h
  · have hs : s.setEnv [] = s := by
      cases s
      cases h
      rfl
    rw [step_of_env_nil h, hs]
  · rw [step_of_env_cons h]
    rfl

/-- If a step answers a next state, it was a turn of the engine, a RESET, or a change of the data space by its owner. -/
theorem step_next_cases {s t : State} (h : step s = .next t) :
    (∃ rest, isTurn s rest ∧ engineTurn (s.setEnv rest) = .next t) ∨
    (∃ rest, s.env = .reset :: rest ∧ t = (s.setEnv rest).resetEngine) ∨
    (∃ rest a b, s.env = .store a b :: rest ∧ t = (s.setEnv rest).setMem (s.mem.put a.toNat b)) ∨
    (∃ rest a, s.env = .withdraw a :: rest ∧ t = (s.setEnv rest).setMem (s.mem.drop a.toNat)) := by
  cases he : s.env with
  | nil => exact .inl ⟨[], .inl ⟨he, rfl⟩, (step_of_isTurn (.inl ⟨he, rfl⟩)) ▸ h⟩
  | cons e rest =>
    rw [step_of_env_cons he] at h
    cases e with
    | turn => exact .inl ⟨rest, .inr he, h⟩
    | reset => exact .inr (.inl ⟨rest, rfl, by cases h; rfl⟩)
    | store a b => exact .inr (.inr (.inl ⟨rest, a, b, rfl, by cases h; rfl⟩))
    | withdraw a => exact .inr (.inr (.inr ⟨rest, a, rfl, by cases h; rfl⟩))

/-- `n_eff` of a command that reads a buffer is its `LEN` (R27). -/
theorem effLen_of_buffer {i : Instr} (h : i.family ≠ .reflect) : effLen i = i.operands.len.toNat := by
  unfold effLen
  cases hf : i.family <;> simp_all

/-- `n_eff` of a reflection is 0 (R27). -/
theorem effLen_of_reflect {i : Instr} (h : i.family = .reflect) : effLen i = 0 := by
  simp [effLen, h]

/-- `n_eff <= 2^32 - 1` (R24). -/
theorem effLen_lt (i : Instr) : effLen i < 2 ^ 32 := by
  by_cases h : i.family = .reflect
  · simp [effLen_of_reflect h]
  · rw [effLen_of_buffer h]
    exact i.operands.len.isLt

@[simp] theorem runFor_zero (s : State) : runFor 0 s = .next s := rfl

/-- A run goes on from the next state of its first step. -/
theorem runFor_succ_of_next {s t : State} (h : step s = .next t) (n : Nat) : runFor (n + 1) s = runFor n t := by
  simp only [runFor, h]

/-- A run of `n + m` steps is a run of `n` and then one of `m`. -/
theorem runFor_add_of_next {n : Nat} {s t : State} (h : runFor n s = .next t) (m : Nat) : runFor (n + m) s = runFor m t := by
  induction n generalizing s with
  | zero =>
    cases h
    rw [Nat.zero_add]
  | succ n ih =>
    cases hs : step s with
    | next u =>
      rw [Nat.succ_add, runFor_succ_of_next hs]
      exact ih (by rwa [runFor_succ_of_next hs] at h)
    | fault f => simp [runFor, hs] at h
    | refused f => simp [runFor, hs] at h

/-- The run of the machine behind the host's interface is this run. -/
theorem core_run_eq_runFor (n : Nat) (s : State) : core.run n s = runFor n s := by
  induction n generalizing s with
  | zero => rfl
  | succ n ih =>
    have hc : core.step s = step s := rfl
    cases hs : step s with
    | next t =>
      rw [runFor_succ_of_next hs, ← ih t]
      simp only [Host.Core.run, hc, hs]
    | fault f =>
      simp only [Host.Core.run, runFor, hc, hs]
      rfl
    | refused f =>
      simp only [Host.Core.run, runFor, hc, hs]
      rfl

end Sys2Proof.Machine
end

