-- ==== Sys2Proof/Laws/PerInstr.lean ====
section
/-! SUPPORT. Facts about each command as syntax, one lemma per constructor of `Instr`. -/

/-- The encoding of a command selects, by R66's table, the row of that command, with the command's own operands. -/
def Sys2Proof.Laws.SelectsRow.Statement (i : Sys2Proof.Instr) : Prop :=
  Sys2Proof.commandOf (Sys2Proof.ctrlOf (Sys2Proof.encode i)) (Sys2Proof.operandsOf (Sys2Proof.encode i)) = some i

namespace Sys2Proof.Laws.SelectsRow

theorem checksum8 (o : Operands) : Statement (.checksum8 o) := by
  have hc : ctrlOf (encode (.checksum8 o)) = 0x1 :=
    (ctrlOf_encode _).trans (by decide : mkCtrl .checksum .w8 false false = 0x1)
  rw [Statement, hc, operandsOf_encode]
  simp [commandOf, rowOf, opcodeRows, selects, Instr.operands]

theorem checksum16 (o : Operands) : Statement (.checksum16 o) := by
  have hc : ctrlOf (encode (.checksum16 o)) = 0x5 :=
    (ctrlOf_encode _).trans (by decide : mkCtrl .checksum .w16 false false = 0x5)
  rw [Statement, hc, operandsOf_encode]
  simp [commandOf, rowOf, opcodeRows, selects, Instr.operands]

theorem checksum32 (o : Operands) : Statement (.checksum32 o) := by
  have hc : ctrlOf (encode (.checksum32 o)) = 0x9 :=
    (ctrlOf_encode _).trans (by decide : mkCtrl .checksum .w32 false false = 0x9)
  rw [Statement, hc, operandsOf_encode]
  simp [commandOf, rowOf, opcodeRows, selects, Instr.operands]

theorem reflectBits8 (o : Operands) : Statement (.reflectBits8 o) := by
  have hc : ctrlOf (encode (.reflectBits8 o)) = 0x2 :=
    (ctrlOf_encode _).trans (by decide : mkCtrl .reflect .w8 false false = 0x2)
  rw [Statement, hc, operandsOf_encode]
  simp [commandOf, rowOf, opcodeRows, selects, Instr.operands]

theorem reflectBits16 (o : Operands) : Statement (.reflectBits16 o) := by
  have hc : ctrlOf (encode (.reflectBits16 o)) = 0x6 :=
    (ctrlOf_encode _).trans (by decide : mkCtrl .reflect .w16 false false = 0x6)
  rw [Statement, hc, operandsOf_encode]
  simp [commandOf, rowOf, opcodeRows, selects, Instr.operands]

theorem reflectBits32 (o : Operands) : Statement (.reflectBits32 o) := by
  have hc : ctrlOf (encode (.reflectBits32 o)) = 0xA :=
    (ctrlOf_encode _).trans (by decide : mkCtrl .reflect .w32 false false = 0xA)
  rw [Statement, hc, operandsOf_encode]
  simp [commandOf, rowOf, opcodeRows, selects, Instr.operands]

theorem crc8 (refin refout : Bool) (o : Operands) : Statement (.crc8 refin refout o) := by
  have hc : ctrlOf (encode (.crc8 refin refout o)) = mkCtrl .crc .w8 refin refout := ctrlOf_encode _
  rw [Statement, hc, operandsOf_encode]
  cases refin <;> cases refout <;>
    simp [commandOf, rowOf, opcodeRows, selects, Instr.operands, mkCtrl, wselCode, opCode, refinField, refoutField]

theorem crc16 (refin refout : Bool) (o : Operands) : Statement (.crc16 refin refout o) := by
  have hc : ctrlOf (encode (.crc16 refin refout o)) = mkCtrl .crc .w16 refin refout := ctrlOf_encode _
  rw [Statement, hc, operandsOf_encode]
  cases refin <;> cases refout <;>
    simp [commandOf, rowOf, opcodeRows, selects, Instr.operands, mkCtrl, wselCode, opCode, refinField, refoutField]

theorem crc32 (refin refout : Bool) (o : Operands) : Statement (.crc32 refin refout o) := by
  have hc : ctrlOf (encode (.crc32 refin refout o)) = mkCtrl .crc .w32 refin refout := ctrlOf_encode _
  rw [Statement, hc, operandsOf_encode]
  cases refin <;> cases refout <;>
    simp [commandOf, rowOf, opcodeRows, selects, Instr.operands, mkCtrl, wselCode, opCode, refinField, refoutField]

end Sys2Proof.Laws.SelectsRow
end

