-- ==== Sys2Proof/Laws/System.lean ====
section
/-! SUPPORT. What a step of one engine of a system, and a step of the system, can do. -/

namespace Sys2Proof.Machine

/-- A working engine whose own step answers a next state takes that step. -/
theorem engineStep_of_next {e : Engine} {x : Elements} {m : Memory} {s : State} (hw : e.status = .working x)
    (h : step (e.over x m) = .next s) : engineStep e m = (s.engine, s.mem) := by
  simp [engineStep, hw, workingStep, h]

/-- A working engine whose own step faults stops. -/
theorem engineStep_of_fault {e : Engine} {x : Elements} {m : Memory} {f : Fault} (hw : e.status = .working x)
    (h : step (e.over x m) = .fault f) : engineStep e m = (e.stop x (.fault f), m) := by
  simp [engineStep, hw, workingStep, h]

/-- A working engine whose own step is refused stops. -/
theorem engineStep_of_refused {e : Engine} {x : Elements} {m : Memory} {f : Refusal} (hw : e.status = .working x)
    (h : step (e.over x m) = .refused f) : engineStep e m = (e.stop x (.refused f), m) := by
  simp [engineStep, hw, workingStep, h]

/-- Without a listed event, a stopped engine stands. -/
theorem engineStep_of_stopped_nil {e : Engine} {m : Memory} {why : Stop} (hs : e.status = .stopped why) (he : e.env = []) :
    engineStep e m = (e, m) := by
  simp [engineStep, hs, stoppedStep, he]

/-- With an event listed, a stopped engine's step is that event. -/
theorem engineStep_of_stopped_cons {e : Engine} {m : Memory} {why : Stop} {v : EnvEvent} {later : List EnvEvent}
    (hs : e.status = .stopped why) (he : e.env = v :: later) :
    engineStep e m = stoppedEvent v { e with env := later } m := by
  simp [engineStep, hs, stoppedStep, he]

/-- Whatever one engine of a system does: its own step, its stop, or an event while it is stopped. -/
theorem engineStep_cases (e : Engine) (m : Memory) :
    (∃ x s, e.status = .working x ∧ step (e.over x m) = .next s ∧ engineStep e m = (s.engine, s.mem)) ∨
    (∃ x why, e.status = .working x ∧ engineStep e m = (e.stop x why, m)) ∨
    (∃ why, e.status = .stopped why ∧ e.env = [] ∧ engineStep e m = (e, m)) ∨
    (∃ why v later, e.status = .stopped why ∧ e.env = v :: later ∧ engineStep e m = stoppedEvent v { e with env := later } m) := by
  cases hs : e.status with
  | working x =>
    cases h : step (e.over x m) with
    | next s => exact .inl ⟨x, s, rfl, h, engineStep_of_next hs h⟩
    | fault f => exact .inr (.inl ⟨x, _, rfl, engineStep_of_fault hs h⟩)
    | refused f => exact .inr (.inl ⟨x, _, rfl, engineStep_of_refused hs h⟩)
  | stopped why =>
    cases he : e.env with
    | nil => exact .inr (.inr (.inl ⟨why, rfl, rfl, engineStep_of_stopped_nil hs he⟩))
    | cons v later => exact .inr (.inr (.inr ⟨why, v, later, rfl, rfl, by rw [← hs]; exact engineStep_of_stopped_cons hs he⟩))

/-- Without an event of its environment, an engine leaves the data space alone, and no event appears. -/
theorem engineStep_of_env_nil {e : Engine} (h : e.env = []) (m : Memory) :
    (engineStep e m).2 = m ∧ (engineStep e m).1.env = [] := by
  rcases engineStep_cases e m with ⟨x, s, -, hs, h1⟩ | ⟨x, why, -, h1⟩ | ⟨why, -, -, h1⟩ | ⟨why, v, later, -, he, -⟩
  · rw [step_of_env_nil h] at hs
    rw [h1]
    rcases engineTurn_next_cases hs with ⟨-, _, _, _, -, -, -, rfl⟩ | ⟨-, _, _, -, -, -, rfl⟩ | ⟨-, _, -, -, rfl⟩ |
      ⟨-, _, -, rfl⟩ | ⟨-, rfl⟩ <;> simp [h]
  · simp [h1, h]
  · simp [h1, h]
  · simp [h] at he

/-- A turn of an engine that exists. -/
theorem systemStep_of_engine {y : System} {k : Nat} {rest : List Nat} {e : Engine} (ht : y.turns = k :: rest)
    (he : y.engines[k]? = some e) :
    systemStep y = { engines := y.engines.set k (engineStep e y.mem).1, mem := (engineStep e y.mem).2, turns := rest } := by
  simp [systemStep, ht, he]

/-- A turn of an engine that does not exist passes. -/
theorem systemStep_of_no_engine {y : System} {k : Nat} {rest : List Nat} (ht : y.turns = k :: rest) (he : y.engines[k]? = none) :
    systemStep y = { y with turns := rest } := by
  simp [systemStep, ht, he]

/-- Without a turn the system stands. -/
theorem systemStep_of_no_turn {y : System} (ht : y.turns = []) : systemStep y = y := by
  simp [systemStep, ht]

end Sys2Proof.Machine
end

