-- ==== Sys2Proof/Laws/Words.lean ====
section
/-! SUPPORT. The small laws of the data paths: width changes, the reflection primitive bit by bit, and the truncated register. -/

namespace Sys2Proof.Machine

/-- A value of width `n <= 32` survives being stored in a word and read back. -/
theorem trunc_zext {n : Nat} (hn : n ≤ 32) (v : BitVec n) : trunc n (zext v) = v := by
  apply BitVec.eq_of_getLsbD_eq
  intro k hk
  have h32 : k < 32 := by omega
  simp [trunc, zext, hk, h32]

/-- A word that holds an `n`-bit value is below `2^n`. -/
theorem zext_lt {n : Nat} (v : BitVec n) : (zext v).toNat < 2 ^ n := by
  rw [BitVec.toNat_setWidth]
  exact Nat.lt_of_le_of_lt (Nat.mod_le _ _) v.isLt

theorem zext_toNat {n : Nat} (hn : n ≤ 32) (v : BitVec n) : (zext v).toNat = v.toNat := by
  rw [BitVec.toNat_setWidth, Nat.mod_eq_of_lt]
  exact Nat.lt_of_lt_of_le v.isLt (Nat.pow_le_pow_right (by decide) hn)

theorem reversedBits_lt {n : Nat} (v : BitVec n) (k : Nat) : reversedBits v k < 2 ^ k := by
  induction k with
  | zero => simp [reversedBits]
  | succ k ih =>
    have := (v.getLsbD k).toNat_le
    simp only [reversedBits]
    omega

/-- Bit `i` of the reversed bits 0 to `k - 1` is bit `k - 1 - i` of the value. -/
theorem reversedBits_testBit {n : Nat} (v : BitVec n) (k i : Nat) (h : i < k) :
    (reversedBits v k).testBit i = v.getLsbD (k - 1 - i) := by
  induction k generalizing i with
  | zero => omega
  | succ k ih =>
    simp only [reversedBits]
    cases i with
    | zero =>
      rw [Nat.testBit_zero, Nat.mul_add_mod]
      cases h0 : v.getLsbD k <;> simp [h0]
    | succ i =>
      rw [Nat.testBit_succ]
      have : (2 * reversedBits v k + (v.getLsbD k).toNat) / 2 = reversedBits v k := by
        have := (v.getLsbD k).toNat_le
        omega
      rw [this, ih i (by omega)]
      congr 1
      omega

/-- Bit `i` of a reflected value is bit `N-1-i` of the value (R110). -/
theorem getLsbD_reflect {n : Nat} (v : BitVec n) (i : Nat) (h : i < n) : (reflect v).getLsbD i = v.getLsbD (n - 1 - i) := by
  rw [reflect, BitVec.getLsbD_ofNat, reversedBits_testBit v n i h]
  simp [h]

@[simp] theorem crcBits_zero {n : Nat} (poly r : BitVec n) : crcBits poly 0 r = r := rfl

theorem crcBits_succ {n : Nat} (poly r : BitVec n) (k : Nat) :
    crcBits poly (k + 1) r = crcBits poly k (crcBit r poly) := rfl

/-- The last of `k + 1` updates, set apart. -/
theorem crcBits_succ_last {n : Nat} (poly r : BitVec n) (k : Nat) :
    crcBits poly (k + 1) r = crcBit (crcBits poly k r) poly := by
  induction k generalizing r with
  | zero => rfl
  | succ k ih => rw [crcBits_succ, ih, ← crcBits_succ]

/-- `k` updates of a register whose top `k` bits are zero never meet the polynomial (R122). -/
theorem crcBits_of_lt {n : Nat} (poly r : BitVec n) {k : Nat} (hk : k ≤ n) (hr : r.toNat < 2 ^ (n - k)) :
    crcBits poly k r = r <<< k := by
  induction k generalizing r with
  | zero => simp
  | succ k ih =>
    have hm : r.msb = false := by
      rw [BitVec.msb_eq_decide, decide_eq_false_iff_not, Nat.not_le]
      exact Nat.lt_of_lt_of_le hr (Nat.pow_le_pow_right (by decide) (by omega))
    have h1 : 2 ^ (n - k) = 2 * 2 ^ (n - (k + 1)) := by
      rw [← Nat.pow_succ']
      congr 1
      omega
    have h2 : (r <<< 1).toNat = 2 * r.toNat := by
      have hle : 2 ^ (n - k) ≤ 2 ^ n := Nat.pow_le_pow_right (by decide) (by omega)
      rw [BitVec.toNat_shiftLeft, Nat.shiftLeft_eq, Nat.pow_one, Nat.mod_eq_of_lt (by omega), Nat.mul_comm]
    have h3 : crcBit r poly = r <<< 1 := by simp [crcBit, hm]
    rw [crcBits_succ, h3, ih _ (by omega) (by omega), ← BitVec.shiftLeft_add, Nat.add_comm]

end Sys2Proof.Machine
end

