-- ==== Sys2Proof/Tests/Slice0.lean ====
section
/-! SUPPORT. Tests of single steps, decodings and well-formedness, with values from the spec's tables and worked examples, and for
every statement with hypotheses a concrete case that meets them all. -/

namespace Sys2Proof.Tests

open Sys2Proof.Machine

/-! ### Small states -/

/-- Operand words in the order of the descriptor: POLY, INIT, XOROUT, OPA, LEN. -/
def words (poly init xorout opa len : Word) : Operands :=
  { poly := poly, init := init, xorout := xorout, opa := opa, len := len }

/-- An idle engine over data space `m` with offers `l`. -/
def idleWith (m : Memory) (l : List Desc) : State := { State.reset with mem := m, offers := l }

/-- An engine in RUN with command `i` latched. -/
def running (i : Instr) (m : Memory) (idx r : Word) : State :=
  { State.reset with phase := .run, cmd := encode i, mem := m, idx := idx, r := r }

/-- An engine in DONE after command `i`. -/
def finished (i : Instr) (res : Word) : State := { State.reset with phase := .done, cmd := encode i, res := res }

/-- The next state, where there is one. -/
def nextOf : Host.Outcome State Fault Refusal → Option State
  | .next s => some s
  | .fault _ => none
  | .refused _ => none

/-! ### Well-formedness refuses what it must -/

/-- U3: `OPA + LEN = 2^32 + 1` is out of range, for a checksum and for a CRC. -/
theorem test_wellFormed_refuses_wrap :
    (Instr.checksum8 (words 0 0 0 0xFFFFFFFF 2)).wellFormed = false ∧
      (Instr.crc32 true true (words 0 0 0 0xFFFFFFFF 2)).wellFormed = false := by decide

/-- U3 and R70: `OPA + LEN = 2^32` is in range, and a reflection ignores `LEN`. -/
theorem test_wellFormed_accepts_edge :
    (Instr.checksum8 (words 0 0 0 0xFFFFFFFF 1)).wellFormed = true ∧
      (Instr.reflectBits32 (words 0 0 0 0xFFFFFFFF 0xFFFFFFFF)).wellFormed = true := by decide

/-! ### Decoding: the words of spec/95_test_vectors.md, one for every row of the opcode table -/

/-- V-DEC-9. -/
theorem test_decode_checksum8 : decode 0x00000001FFFFFFFF00000000000000000000000000000001#192
    = .command (.checksum8 (words 0 0 0 0xFFFFFFFF 1)) := by decide

/-- V-DEC-13: the unused words are carried. -/
theorem test_decode_checksum16 : decode 0x0000000200002000DEADBEEFDEADBEEFDEADBEEF00000005#192
    = .command (.checksum16 (words 0xDEADBEEF 0xDEADBEEF 0xDEADBEEF 0x2000 2)) := by decide

/-- V-DEC-10. -/
theorem test_decode_checksum32 : decode 0xFFFFFFFF0000000000000000000000000000000000000009#192
    = .command (.checksum32 (words 0 0 0 0 0xFFFFFFFF)) := by decide

/-- V-REF-12. -/
theorem test_decode_reflect8 : decode 0x00000000000001F300000000000000000000000000000002#192
    = .command (.reflectBits8 (words 0 0 0 0x1F3 0)) := by decide

/-- V-REF-13. -/
theorem test_decode_reflect16 : decode 0x000000000001234500000000000000000000000000000006#192
    = .command (.reflectBits16 (words 0 0 0 0x12345 0)) := by decide

/-- V-DEC-12. -/
theorem test_decode_reflect32 : decode 0xFFFFFFFFFFFFFFFF0000000000000000000000000000000A#192
    = .command (.reflectBits32 (words 0 0 0 0xFFFFFFFF 0xFFFFFFFF)) := by decide

/-- V-CRC-20: REFOUT alone. -/
theorem test_decode_crc8 : decode 0x00000000DEAD000000000001000000000000000700000023#192
    = .command (.crc8 false true (words 7 0 1 0xDEAD0000 0)) := by decide

/-- V-CRC-2. -/
theorem test_decode_crc16 : decode 0x0000000900001000000000000000FFFF0000800500000037#192
    = .command (.crc16 true true (words 0x8005 0xFFFF 0 0x1000 9)) := by decide

/-- V-DEC-7. -/
theorem test_decode_crc32 : decode 0x0000000900001000FFFFFFFFFFFFFFFF04C11DB70000003B#192
    = .command (.crc32 true true (words 0x04C11DB7 0xFFFFFFFF 0xFFFFFFFF 0x1000 9)) := by decide

/-- V-DEC-1 to V-DEC-5: OP 0, WSEL 3, REFIN on a checksum, REFOUT on a reflection, `CTRL[6]`. -/
theorem test_decode_reserved :
    decode 0x000000000000000000000000000000000000000000000000#192 = .reserved ∧
    decode 0x00000002000020000000000000000000000000000000000D#192 = .reserved ∧
    decode 0x000000020000200000000000000000000000000000000011#192 = .reserved ∧
    decode 0x000000000000000100000000000000000000000000000022#192 = .reserved ∧
    decode 0x000000090000100000000000000000000000003100000043#192 = .reserved := by decide

/-- V-DEC-8, and V-DEC-11 beside it: length 0 at the last address is in range. -/
theorem test_decode_range :
    decode 0x00000002FFFFFFFF00000000000000000000000000000001#192 = .outOfRange ∧
    decode 0x00000000FFFFFFFF00000000000000000000000000000009#192
      = .command (.checksum32 (words 0 0 0 0xFFFFFFFF 0)) := by decide

/-! ### The text form (R73) and the command it assembles to (spec/30_encoding.md, section 5) -/

theorem test_text_checksum16 :
    callText (.checksum .w16 0x2000 2) = "checksum16(0x00002000, 2)".toList := by decide

theorem test_text_reflect : callText (.reflectBits 0x04C11DB7 .w32) = "reflect_bits(0x04C11DB7, 32)".toList := by decide

theorem test_assemble_crc8 :
    encode (assemble (.crc .w8 { polynomial := 0x31, initialValue := 0, reflectInput := true, reflectOutput := true, finalXor := 0 }
      0x1000 9)) = 0x000000090000100000000000000000000000003100000033#192 := by decide

/-! ### One step of each command -/

/-- P2: FF, then 01, wraps at 8 bits. -/
theorem test_checksum8_wraps :
    ((nextOf (exec (.checksum8 (words 0 0 0 0x2000 2)) (running (.checksum8 (words 0 0 0 0x2000 2)) [(0x2001, 1)] 1 0xFF))).map
      fun s => (s.r, s.idx, s.reads)) = some (0, 2, [0x2001]) := by decide

/-- P2: the same byte in a 16-bit accumulator. -/
theorem test_checksum16_carries_into_high_byte :
    ((nextOf (exec (.checksum16 (words 0 0 0 0x2000 2)) (running (.checksum16 (words 0 0 0 0x2000 2)) [(0x2001, 1)] 1 0xFF))).map
      fun s => s.r) = some 0x100 := by decide

/-- V-SUM-11: one FF more than a sum of FFFFFFFF gives 000000FE. -/
theorem test_checksum32_wraps :
    ((nextOf (exec (.checksum32 (words 0 0 0 0 0xFFFFFFFF)) (running (.checksum32 (words 0 0 0 0 0xFFFFFFFF)) [(7, 0xFF)] 7
      0xFFFFFFFF))).map fun s => s.r) = some 0xFE := by decide

/-- V-REF-12: bit 8 of the value is dropped at ACCEPT. -/
theorem test_reflect8_accept_truncates :
    ((nextOf (exec (.reflectBits8 (words 0 0 0 0x1F3 0)) (idleWith [] []))).map fun s => (s.r, s.phase)) = some (0xF3, .run) := by
  decide

/-- V-REF-12: F3 reflects to CF. -/
theorem test_reflect8_final :
    ((nextOf (exec (.reflectBits8 (words 0 0 0 0x1F3 0)) (running (.reflectBits8 (words 0 0 0 0x1F3 0)) [] 0 0xF3))).map
      fun s => (s.res, s.phase)) = some (0xCF, .done) := by decide

/-- V-REF-13. -/
theorem test_reflect16_final :
    ((nextOf (exec (.reflectBits16 (words 0 0 0 0x12345 0)) (running (.reflectBits16 (words 0 0 0 0x12345 0)) [] 0 0x2345))).map
      fun s => s.res) = some 0xA2C4 := by decide

/-- V-REF-19. -/
theorem test_reflect32_final :
    ((nextOf (exec (.reflectBits32 (words 0 0 0 0x04C11DB7 0)) (running (.reflectBits32 (words 0 0 0 0x04C11DB7 0)) [] 0
      0x04C11DB7))).map fun s => s.res) = some 0xEDB88320 := by decide

/-- P1, first BYTE: the byte 31 is reflected to 8C and the register becomes 07. -/
theorem test_crc8_byte :
    ((nextOf (exec (.crc8 true true (words 0x131 0 0 0x1000 9)) (running (.crc8 true true (words 0x131 0 0 0x1000 9))
      [(0x1000, 0x31)] 0 0))).map fun s => s.r) = some 0x07 := by decide

/-- V-CRC-20: the mask is applied before the reflection, so the result is 80, not 01. -/
theorem test_crc8_final_order :
    ((nextOf (exec (.crc8 false true (words 7 0 1 0xDEAD0000 0)) (running (.crc8 false true (words 7 0 1 0xDEAD0000 0)) [] 0 0))).map
      fun s => s.res) = some 0x80 := by decide

/-- V-BYTE-2. -/
theorem test_crc16_byte :
    ((nextOf (exec (.crc16 false false (words 0x1021 0xFFFF 0 0x1000 9)) (running (.crc16 false false (words 0x1021 0xFFFF 0 0x1000 9))
      [(0x1000, 0x31)] 0 0xFFFF))).map fun s => s.r) = some 0xC782 := by decide

/-- V-CRC-21. -/
theorem test_crc16_final_order :
    ((nextOf (exec (.crc16 true true (words 0x1021 0 1 0x1000 9)) (running (.crc16 true true (words 0x1021 0 1 0x1000 9)) [] 9
      0x9184))).map fun s => s.res) = some 0xA189 := by decide

/-- V-BYTE-5. -/
theorem test_crc32_byte :
    ((nextOf (exec (.crc32 true true (words 0x04C11DB7 0xFFFFFFFF 0xFFFFFFFF 0x1000 9)) (running (.crc32 true true (words 0x04C11DB7
      0xFFFFFFFF 0xFFFFFFFF 0x1000 9)) [(0x1000, 0x31)] 0 0xFFFFFFFF))).map fun s => s.r) = some 0x1208C43E := by decide

/-- V-CRC-3. -/
theorem test_crc32_final :
    ((nextOf (exec (.crc32 true true (words 0x04C11DB7 0xFFFFFFFF 0xFFFFFFFF 0x1000 9)) (running (.crc32 true true (words 0x04C11DB7
      0xFFFFFFFF 0xFFFFFFFF 0x1000 9)) [] 9 0x9B63D02C))).map fun s => s.res) = some 0xCBF43926 := by decide

/-- V-BIT-2: the bit shifted out at 32 bits is lost, not carried. -/
theorem test_crcBit_drops_top : crcBit (0x80000000 : BitVec 32) 0x04C11DB7 = 0x04C11DB7 ∧
    crcBit (0x40000000 : BitVec 32) 0x04C11DB7 = 0x80000000 := by decide

/-- EDS's canonical conformance vector (R126) and its other two check values (R127, R128). -/
theorem test_check_values :
    crcOf (crcParams 8 true true (words 0x31 0 0 0 0)) [0x31, 0x32, 0x33, 0x34, 0x35, 0x36, 0x37, 0x38, 0x39] = 0xA1 ∧
    crcOf (crcParams 16 true true (words 0x8005 0xFFFF 0 0 0)) [0x31, 0x32, 0x33, 0x34, 0x35, 0x36, 0x37, 0x38, 0x39] = 0x4B37 ∧
    crcOf (crcParams 32 true true (words 0x04C11DB7 0xFFFFFFFF 0xFFFFFFFF 0 0))
      [0x31, 0x32, 0x33, 0x34, 0x35, 0x36, 0x37, 0x38, 0x39] = 0xCBF43926 := by decide +kernel

/-! ### Cases that meet the hypotheses of the statements

Each theorem is named after the statement whose hypotheses it meets. -/

/-- A checksum of the last byte of the data space: `OPA + LEN = 2^32`. -/
def edge : Instr := .checksum8 (words 0 0 0 0xFFFFFFFF 1)

/-- A CRC of the last byte of the data space. -/
def edgeCrc : Instr := .crc16 true false (words 0x8005 0xFFFF 0 0xFFFFFFFF 1)

/-- The data space that holds that byte only. -/
def edgeMem : Memory := [(0xFFFFFFFF, 0x5A)]

theorem witness_DecodeOfEncodeIsTheCommand : edge.wellFormed = true ∧ edgeCrc.wellFormed = true := by decide

theorem witness_EncodeOfDecodeIsTheDescriptor :
    decode 0x00000001FFFFFFFF00000000000000000000000000000001#192 = .command edge := by decide

theorem witness_StepRunsTheOfferedCommand :
    (idleWith [] [encode edge]).phase = .idle ∧ (idleWith [] [encode edge]).offers = encode edge :: [] ∧
      decode (encode edge) = .command edge ∧ (idleWith [] [encode edge]).env = [] ∧
      ((idleWith [] [encode edge]).setEnv [.turn, .reset]).env = .turn :: [.reset] := by decide

theorem witness_StepRunsTheLatchedCommand :
    (running edge edgeMem 0 0).phase = .run ∧ decode (running edge edgeMem 0 0).cmd = .command edge ∧
      (running edge edgeMem 0 0).env = [] ∧ ((running edge edgeMem 0 0).setEnv [.turn]).env = .turn :: [] := by decide

theorem witness_StepAfterWithFetchWordRunsTheWord :
    decodeTableWord 192 0x00000001FFFFFFFF00000000000000000000000000000001 = some edge := by decide

/-- The second case: an offer that waits in RUN while a byte is read. -/
theorem witness_AcceptLatchesTheDescriptorAndLoadsR :
    (State.reset.phase = .idle ∧ edge.wellFormed = true) ∧
      ((running edge edgeMem 0 0).setOffers [encode edgeCrc]).phase ≠ .idle ∧
      ∃ t, step ((running edge edgeMem 0 0).setOffers [encode edgeCrc]) = .next t := ⟨by decide, by decide, _, rfl⟩

theorem witness_IllegalOfferIsRefused :
    (idleWith [] [0]).phase = .idle ∧ (idleWith [] [0]).offers = 0 :: [] ∧ (idleWith [] [0]).env = [] ∧
      decode 0 = .reserved ∧
      (idleWith [] [0x00000002FFFFFFFF00000000000000000000000000000001#192]).offers
        = 0x00000002FFFFFFFF00000000000000000000000000000001#192 :: [] ∧
      decode 0x00000002FFFFFFFF00000000000000000000000000000001#192 = .outOfRange ∧
      State.reset.phase = .idle ∧ (Instr.checksum8 (words 0 0 0 0xFFFFFFFF 2)).wellFormed = false := by decide

theorem witness_ByteStepConsumesOneByte :
    ((running edge edgeMem 0 0).phase = .run ∧ (running edge edgeMem 0 0).idx.toNat < effLen edge ∧
      (running edge edgeMem 0 0).mem.read (edge.operands.opa.toNat + (running edge edgeMem 0 0).idx.toNat) = some 0x5A) ∧
    ((running edgeCrc edgeMem 0 0).phase = .run ∧ (running edgeCrc edgeMem 0 0).idx.toNat < effLen edgeCrc ∧
      (running edgeCrc edgeMem 0 0).mem.read (edgeCrc.operands.opa.toNat + (running edgeCrc edgeMem 0 0).idx.toNat)
        = some 0x5A) := by decide

theorem witness_ByteStepAdvancesIdxWithoutWrap :
    (running edge edgeMem 0 0).phase = .run ∧ (running edge edgeMem 0 0).idx.toNat < effLen edge ∧
      ∃ t, exec edge (running edge edgeMem 0 0) = .next t := ⟨by decide, by decide, _, rfl⟩

/-- The largest `idx` before a BYTE step: `LEN - 1` with `LEN = 2^32 - 1` (R24). -/
theorem witness_ByteStepAdvancesIdxWithoutWrap_largest :
    (running (.checksum8 (words 0 0 0 0 0xFFFFFFFF)) [(0xFFFFFFFE, 1)] 0xFFFFFFFE 0).idx.toNat
      < effLen (.checksum8 (words 0 0 0 0 0xFFFFFFFF)) ∧
    ∃ t, exec (.checksum8 (words 0 0 0 0 0xFFFFFFFF))
      (running (.checksum8 (words 0 0 0 0 0xFFFFFFFF)) [(0xFFFFFFFE, 1)] 0xFFFFFFFE 0) = .next t := ⟨by decide, _, rfl⟩

theorem witness_EffectiveAddressFitsIn32Bits : edge.wellFormed = true ∧ 0 < effLen edge := by decide

/-- P5: the third byte of a two-byte extent. -/
theorem witness_UnreadableByteFaults :
    (Instr.checksum8 (words 0 0 0 0x5000 3)).family ≠ .reflect ∧
      (running (.checksum8 (words 0 0 0 0x5000 3)) [(0x5000, 0xAA), (0x5001, 0x55)] 2 0xFF).phase = .run ∧
      (running (.checksum8 (words 0 0 0 0x5000 3)) [(0x5000, 0xAA), (0x5001, 0x55)] 2 0xFF).idx.toNat < 3 ∧
      (running (.checksum8 (words 0 0 0 0x5000 3)) [(0x5000, 0xAA), (0x5001, 0x55)] 2 0xFF).mem.read (0x5000 + 2) = none := by
  decide

/-- One command of each family; the reflection has `LEN` set, which it ignores, and is at `idx` 0. -/
theorem witness_FinalPutsTheResultIntoRes :
    ((running edge [] 1 0x5A).phase = .run ∧ (running edge [] 1 0x5A).idx.toNat = effLen edge) ∧
    ((running (.reflectBits8 (words 0 0 0 0x1F3 0xFFFFFFFF)) [] 0 0xF3).phase = .run ∧
      (running (.reflectBits8 (words 0 0 0 0x1F3 0xFFFFFFFF)) [] 0 0xF3).idx.toNat
        = effLen (.reflectBits8 (words 0 0 0 0x1F3 0xFFFFFFFF))) ∧
    ((running edgeCrc [] 1 0).phase = .run ∧ (running edgeCrc [] 1 0).idx.toNat = effLen edgeCrc) := by decide

theorem witness_EffectiveLengthByFamily :
    edge.family = .checksum ∧ edgeCrc.family = .crc ∧ (Instr.reflectBits8 (words 0 0 0 0 7)).family = .reflect := by decide

theorem witness_TakeDeliversResAndDoneWaitsForIt :
    (((finished edge 0x5A).setTakes 1).phase = .done ∧ ((finished edge 0x5A).setTakes 1).takes = 0 + 1 ∧
      ((finished edge 0x5A).setTakes 1).env = []) ∧
    ((finished edge 0x5A).phase = .done ∧ (finished edge 0x5A).takes = 0 ∧ (finished edge 0x5A).env = []) := by decide

theorem witness_ResetAbandonsTheCommand :
    ((running edge edgeMem 0 0).setEnv [.reset, .turn]).env = .reset :: [.turn] := by decide

/-- One step for each way the phase may move: it stays, ACCEPT, FINAL, TAKE, RESET. -/
theorem witness_PhaseMovesOnlyAlongTheCycle :
    (∃ t, step State.reset = .next t ∧ t.phase = .idle) ∧
    (∃ t, step (idleWith [] [encode edge]) = .next t ∧ t.phase = .run) ∧
    (∃ t, step (running edge [] 1 0) = .next t ∧ t.phase = .done) ∧
    (∃ t, step ((finished edge 0).setTakes 1) = .next t ∧ t.phase = .idle) ∧
    (∃ t, step ((finished edge 0).setEnv [.reset]) = .next t ∧ t.phase = .idle) :=
  ⟨⟨_, rfl, rfl⟩, ⟨_, rfl, rfl⟩, ⟨_, rfl, rfl⟩, ⟨_, rfl, rfl⟩, ⟨_, rfl, rfl⟩⟩

theorem witness_OnlyAcceptAndResetWriteCmd :
    ∃ t, step (idleWith [] [encode edge]) = .next t ∧ t.cmd ≠ (idleWith [] [encode edge]).cmd := ⟨_, rfl, by decide⟩

theorem witness_EngineNeverWritesMemory :
    (∃ t, step (running edge edgeMem 0 0) = .next t) ∧
      (∀ a b, (running edge edgeMem 0 0).env.head? ≠ some (.store a b)) ∧
      (∀ a, (running edge edgeMem 0 0).env.head? ≠ some (.withdraw a)) :=
  by
  refine ⟨⟨_, rfl⟩, ?_, ?_⟩ <;> simp [running, State.reset]

/-- One step that reads and one that does not. -/
theorem witness_ReadsStayInsideTheBuffer :
    (∃ t, step (running edge edgeMem 0 0) = .next t ∧ t.reads = [0xFFFFFFFF]) ∧
      ∃ t, step (running edge edgeMem 1 0) = .next t ∧ t.reads = [] := ⟨⟨_, rfl, by decide⟩, ⟨_, rfl, by decide⟩⟩

/-- One step of each kind: ACCEPT, BYTE, FINAL, and a wait in DONE. -/
theorem witness_CommandStepFrame :
    (∃ t, exec edge State.reset = .next t) ∧ (∃ t, exec edge (running edge edgeMem 0 0) = .next t) ∧
      (∃ t, exec edge (running edge edgeMem 1 0) = .next t) ∧ (∃ t, exec edge (finished edge 0) = .next t) :=
  ⟨⟨_, rfl⟩, ⟨_, rfl⟩, ⟨_, rfl⟩, ⟨_, rfl⟩⟩

theorem witness_EnvironmentStoreChangesOneByte :
    ((running edge edgeMem 0 0).setEnv [.store 0xFFFFFFFF 1]).env = .store 0xFFFFFFFF 1 :: [] := by decide

theorem witness_EnvironmentWithdrawalHidesOneByte :
    ((running edge edgeMem 0 0).setEnv [.withdraw 0xFFFFFFFF]).env = .withdraw 0xFFFFFFFF :: [] := by decide

/-- A state in the middle of a command meets the invariant. -/
theorem witness_Inv_running : Inv (running edge edgeMem 1 0x5A) :=
  ⟨by decide, .inr ⟨edge, by decide, by decide, by decide⟩⟩

/-- A state with a result waiting meets the invariant. -/
theorem witness_Inv_finished : Inv (finished edge 0xFF) := ⟨by decide, .inr ⟨edge, by decide, (by decide : (0xFF : Word).toNat < 2 ^ 8)⟩⟩

theorem witness_StepKeepsInv :
    Inv (running edge edgeMem 1 0x5A) ∧ ∃ t, step (running edge edgeMem 1 0x5A) = .next t := ⟨witness_Inv_running, _, rfl⟩

theorem witness_NoStopWhileTheHostKeepsItsDuties :
    Inv (running edge edgeMem 0 0) ∧ offersLegal (running edge edgeMem 0 0) ∧ nextByteReadable (running edge edgeMem 0 0) := by
  refine ⟨⟨by decide, .inr ⟨edge, by decide, by decide, by decide⟩⟩, fun d h => absurd h List.not_mem_nil, fun i _ h _ => ?_⟩
  have hd : decode (running edge edgeMem 0 0).cmd = .command edge := by decide
  rw [hd] at h
  cases h
  decide

theorem witness_WholeCommandDeliversItsResult :
    edge.wellFormed = true ∧ ((idleWith edgeMem [encode edge]).setTakes 1).phase = .idle ∧
      ((idleWith edgeMem [encode edge]).setTakes 1).env = [] ∧
      ((idleWith edgeMem [encode edge]).setTakes 1).offers = encode edge :: [] ∧
      ((idleWith edgeMem [encode edge]).setTakes 1).takes = 0 + 1 ∧
      bufferHolds edge ((idleWith edgeMem [encode edge]).setTakes 1).mem [0x5A] :=
  ⟨by decide, rfl, rfl, rfl, rfl, by unfold bufferHolds; decide⟩

/-- The environment writes next to the buffer, takes that back, and lets the engine go on in between. -/
def busyHost : State := (idleWith edgeMem [encode edge]).setEnv [.store 0xFFFFFFFE 1, .turn, .withdraw 0xFFFFFFFE]

theorem witness_StableBufferGivesThePureResult :
    edge.wellFormed = true ∧ busyHost.phase = .idle ∧ quietFor edge busyHost.env ∧ busyHost.offers = encode edge :: [] ∧
      busyHost.takes = 0 ∧ bufferHolds edge busyHost.mem [0x5A] :=
  ⟨by decide, rfl, by unfold quietFor; decide, rfl, rfl, by unfold bufferHolds; decide⟩

/-- Two idle states with different leftovers, and one in RUN that differs in `RES`. -/
theorem witness_LeftoversNeverMatter :
    sameButLeftovers (idleWith edgeMem [encode edge]) { idleWith edgeMem [encode edge] with cmd := 7, r := 8, idx := 9, res := 10 } ∧
      sameButLeftovers (running edge edgeMem 0 0) { running edge edgeMem 0 0 with res := 10 } := by
  unfold sameButLeftovers
  decide

theorem witness_ChecksumIgnoresByteOrder : ([0xFF, 0x01] : List Byte).Perm [0x01, 0xFF] := by decide

theorem witness_ReflectMovesBitToMirrorPosition : 0 < Width.w8.bits ∧ 31 < Width.w32.bits := by decide

theorem witness_LeadingZeroBytesLeaveNoTrace : (crcParams 16 true true (words 0x1021 0 0xFFFF 0 0)).init = 0 := by decide

/-- V-CRC-32 and V-CRC-33: words that differ above bit 7 only. -/
theorem witness_ResultIgnoresUnusedOperandBits :
    (trunc 8 (0x131 : Word) = trunc 8 0x31 ∧ trunc 8 (0x1FF : Word) = trunc 8 0xFF ∧ trunc 8 (0x3FF : Word) = trunc 8 0xFF) ∧
      (trunc 16 (0x12345 : Word) = trunc 16 0x2345) := by decide

/-- Two engines over one data space, engine 0 about to read a byte, engine 1 about to accept a command. -/
def pair : System :=
  { engines := [(running edge edgeMem 0 0).engine, (idleWith edgeMem [encode edgeCrc]).engine], mem := edgeMem, turns := [0, 1] }

/-- The same engines over an empty data space, where engine 0 reads outside the extent (P5). -/
def pairWithFault : System := { pair with mem := [] }

/-- R149: the fault of engine 0 leaves engine 1 free to accept its command. -/
theorem test_fault_of_one_engine_lets_the_other_accept :
    (systemStep (systemStep pairWithFault)).engines.map Engine.status =
      [.stopped (.fault (.unreadableByte 0xFFFFFFFF)), .working { phase := .run, cmd := encode edgeCrc, r := 0xFFFF, idx := 0, res := 0 }]
    := by decide

/-- R149: a reserved offer to engine 0 stops engine 0 only. -/
theorem test_refusal_of_one_engine_lets_the_other_accept :
    (systemStep (systemStep { pair with engines := [(idleWith [] [0]).engine, (idleWith [] [encode edgeCrc]).engine] })).engines.map
        Engine.status =
      [.stopped (.refused .reservedDescriptor), .working { phase := .run, cmd := encode edgeCrc, r := 0xFFFF, idx := 0, res := 0 }]
    := by decide

/-- The last two clauses: an engine that takes its step, and one that does not exist. -/
theorem witness_EnginesShareNothingButMemory :
    pair.turns = 0 :: [1] ∧ pair.engines[0]? = some (running edge edgeMem 0 0).engine ∧
      (running edge edgeMem 0 0).engine.status = .working (running edge edgeMem 0 0).elements ∧
      (∃ s, step ((running edge edgeMem 0 0).engine.over (running edge edgeMem 0 0).elements pair.mem) = .next s) ∧
      (1 : Nat) ≠ 0 ∧ ({ pair with turns := [2] } : System).turns = 2 :: [] ∧ ({ pair with turns := [2] } : System).engines[2]? = none :=
  ⟨rfl, rfl, rfl, ⟨_, rfl⟩, by decide, rfl, rfl⟩

/-- A fault (over no memory) and a refusal (of a reserved offer). -/
theorem witness_StopOfOneEngineTouchesNoOther :
    (pairWithFault.turns = 0 :: [1] ∧ pairWithFault.engines[0]? = some (running edge edgeMem 0 0).engine ∧
      (running edge edgeMem 0 0).engine.status = .working (running edge edgeMem 0 0).elements ∧
      step ((running edge edgeMem 0 0).engine.over (running edge edgeMem 0 0).elements pairWithFault.mem)
        = .fault (.unreadableByte 0xFFFFFFFF) ∧
      ∀ s, step ((running edge edgeMem 0 0).engine.over (running edge edgeMem 0 0).elements pairWithFault.mem) ≠ .next s) ∧
    ({ pair with engines := [(idleWith [] [0]).engine] } : System).engines[0]? = some (idleWith [] [0]).engine ∧
      (idleWith [] [0]).engine.status = .working (idleWith [] [0]).elements ∧
      step ((idleWith [] [0]).engine.over (idleWith [] [0]).elements pair.mem) = .refused .reservedDescriptor :=
  ⟨⟨rfl, rfl, rfl, rfl, fun _ h => nomatch h⟩, rfl, rfl, rfl⟩

/-- An engine stopped by a fault, a turn of it, and a RESET of it. -/
theorem witness_OnlyResetRevivesAStoppedEngine :
    ∃ e : Engine, (systemStep pairWithFault).engines[0]? = some e ∧ e.status = .stopped (.fault (.unreadableByte 0xFFFFFFFF)) ∧
      e.env.head? ≠ some .reset ∧
      ({ e with env := [.reset] } : Engine).status = .stopped (.fault (.unreadableByte 0xFFFFFFFF)) ∧
      ({ e with env := [.reset] } : Engine).env = .reset :: [] := ⟨_, rfl, rfl, by decide, rfl, rfl⟩

/-- Over the extent, and over no memory, where engine 0 stops. -/
theorem witness_EnginesCommute :
    (0 : Nat) ≠ 1 ∧ (∀ e, pair.engines[0]? = some e → e.env = []) ∧ (∀ e, pair.engines[1]? = some e → e.env = []) ∧
      (∀ e, pairWithFault.engines[0]? = some e → e.env = []) ∧ ∀ e, pairWithFault.engines[1]? = some e → e.env = [] := by
  refine ⟨by decide, ?_, ?_, ?_, ?_⟩ <;> rintro e ⟨⟩ <;> rfl

theorem witness_EveryEngineRunsAsIfAlone :
    (∀ f ∈ pair.engines, f.env = []) ∧ pair.engines[1]? = some (idleWith edgeMem [encode edgeCrc]).engine := by decide

end Sys2Proof.Tests
end

/-! ## No hidden state (R12, R32, R36)

`sameButLeftovers` is a simulation of the machine by itself. Every update of the state keeps the relation, in the phase in which a step
makes that update; hence each part of the step, from the steps of a command up to `step`, takes related states to outcomes that are
alike (`SameOutcome`). -/

namespace Sys2Proof.Machine

/-! ### What related states have in common -/

section
variable {s t : State}

theorem sameButLeftovers.phase_eq (h : sameButLeftovers s t) : s.phase = t.phase :=
  let ⟨hphase, _⟩ := h
  hphase

theorem sameButLeftovers.mem_eq (h : sameButLeftovers s t) : s.mem = t.mem :=
  let ⟨_, hmem, _⟩ := h
  hmem

theorem sameButLeftovers.offers_eq (h : sameButLeftovers s t) : s.offers = t.offers :=
  let ⟨_, _, hoffers, _⟩ := h
  hoffers

theorem sameButLeftovers.takes_eq (h : sameButLeftovers s t) : s.takes = t.takes :=
  let ⟨_, _, _, htakes, _⟩ := h
  htakes

theorem sameButLeftovers.env_eq (h : sameButLeftovers s t) : s.env = t.env :=
  let ⟨_, _, _, _, henv, _⟩ := h
  henv

/-- In RUN the elements that BYTE and FINAL read are shared (R84, R86). -/
theorem sameButLeftovers.latch_eq (h : sameButLeftovers s t) (hp : s.phase = .run) :
    s.cmd = t.cmd ∧ s.r = t.r ∧ s.idx = t.idx :=
  let ⟨_, _, _, _, _, _, _, hrun, _⟩ := h
  hrun hp

/-! ### Every update keeps the relation -/

theorem sameButLeftovers.setOffers (h : sameButLeftovers s t) (l : List Desc) :
    sameButLeftovers (s.setOffers l) (t.setOffers l) :=
  let ⟨hphase, hmem, _, htakes, henv, htaken, hreads, hrun, hdone⟩ := h
  ⟨hphase, hmem, rfl, htakes, henv, htaken, hreads, hrun, hdone⟩

theorem sameButLeftovers.setTakes (h : sameButLeftovers s t) (k : Nat) :
    sameButLeftovers (s.setTakes k) (t.setTakes k) :=
  let ⟨hphase, hmem, hoffers, _, henv, htaken, hreads, hrun, hdone⟩ := h
  ⟨hphase, hmem, hoffers, rfl, henv, htaken, hreads, hrun, hdone⟩

theorem sameButLeftovers.setEnv (h : sameButLeftovers s t) (l : List EnvEvent) :
    sameButLeftovers (s.setEnv l) (t.setEnv l) :=
  let ⟨hphase, hmem, hoffers, htakes, _, htaken, hreads, hrun, hdone⟩ := h
  ⟨hphase, hmem, hoffers, htakes, rfl, htaken, hreads, hrun, hdone⟩

theorem sameButLeftovers.setMem (h : sameButLeftovers s t) (m : Memory) :
    sameButLeftovers (s.setMem m) (t.setMem m) :=
  let ⟨hphase, _, hoffers, htakes, henv, htaken, hreads, hrun, hdone⟩ := h
  ⟨hphase, rfl, hoffers, htakes, henv, htaken, hreads, hrun, hdone⟩

/-- ACCEPT writes every element that RUN reads, so nothing of an earlier command is left there (R36, R82). -/
theorem sameButLeftovers.accept (h : sameButLeftovers s t) (d : Desc) (load : Word) :
    sameButLeftovers (s.accept d load) (t.accept d load) :=
  let ⟨_, hmem, hoffers, htakes, henv, htaken, hreads, _, _⟩ := h
  ⟨rfl, hmem, hoffers, htakes, henv, htaken, hreads, fun _ => ⟨rfl, rfl, rfl⟩, nofun⟩

/-- BYTE advances the shared `idx` and appends one address to the shared record of reads (R84). -/
theorem sameButLeftovers.consume (h : sameButLeftovers s t) (hp : s.phase = .run) (a : Nat) (r : Word) :
    sameButLeftovers (s.consume a r) (t.consume a r) :=
  let ⟨hphase, hmem, hoffers, htakes, henv, htaken, hreads, hrun, hdone⟩ := h
  let ⟨hcmd, _, hidx⟩ := hrun hp
  ⟨hphase, hmem, hoffers, htakes, henv, htaken, congrArg (· ++ [a]) hreads,
    fun _ => ⟨hcmd, rfl, congrArg (· + 1) hidx⟩, hdone⟩

/-- FINAL writes `RES`, the one element that DONE reads (R36, R86). -/
theorem sameButLeftovers.final (h : sameButLeftovers s t) (result : Word) :
    sameButLeftovers (s.final result) (t.final result) :=
  let ⟨_, hmem, hoffers, htakes, henv, htaken, hreads, _, _⟩ := h
  ⟨rfl, hmem, hoffers, htakes, henv, htaken, hreads, nofun, fun _ => rfl⟩

/-- TAKE delivers the shared `RES` (R88). -/
theorem sameButLeftovers.deliver (h : sameButLeftovers s t) (hp : s.phase = .done) :
    sameButLeftovers s.deliver t.deliver :=
  let ⟨_, hmem, hoffers, htakes, henv, htaken, hreads, _, hdone⟩ := h
  ⟨rfl, hmem, hoffers, htakes, henv, congrArg₂ (fun l v => l ++ [v]) htaken (hdone hp), hreads, nofun, nofun⟩

/-- RESET leaves the engine in IDLE, which reads none of the four values drawn; the counts of RESETs need not be equal (R35, R160). -/
theorem sameButLeftovers.resetEngine (h : sameButLeftovers s t) : sameButLeftovers s.resetEngine t.resetEngine :=
  let ⟨_, hmem, hoffers, htakes, henv, htaken, hreads, _, _⟩ := h
  ⟨rfl, hmem, hoffers, htakes, henv, htaken, hreads, nofun, nofun⟩

end

/-! ### Outcomes that are alike -/

/-- Two outcomes are alike: next states that differ only in leftovers, or the same stop for the same reason. -/
inductive SameOutcome : Host.Outcome State Fault Refusal → Host.Outcome State Fault Refusal → Prop where
  | next {s t : State} (h : sameButLeftovers s t) : SameOutcome (.next s) (.next t)
  | fault (f : Fault) : SameOutcome (.fault f) (.fault f)
  | refused (f : Refusal) : SameOutcome (.refused f) (.refused f)

/-- Of two outcomes that are alike, the second answers, faults or is refused as the first does. -/
theorem SameOutcome.second_follows_first {a b : Host.Outcome State Fault Refusal} (h : SameOutcome a b) :
    (∀ s, a = .next s → ∃ t, b = .next t ∧ sameButLeftovers s t) ∧
    (∀ f, a = .fault f → b = .fault f) ∧ (∀ f, a = .refused f → b = .refused f) := by
  cases h with
  | next h => exact ⟨by rintro _ ⟨⟩; exact ⟨_, rfl, h⟩, nofun, nofun⟩
  | fault f => exact ⟨nofun, fun _ => id, nofun⟩
  | refused f => exact ⟨nofun, nofun, fun _ => id⟩

/-! ### The parts of a step take related states to outcomes that are alike -/

section
variable {s t : State}

theorem byteStep_sameOutcome (h : sameButLeftovers s t) (hp : s.phase = .run) (i : Instr) (update : Word → Byte → Word) :
    SameOutcome (byteStep i update s) (byteStep i update t) := by
  obtain ⟨-, hr, hidx⟩ := h.latch_eq hp
  unfold byteStep
  rw [← h.mem_eq, ← hr, ← hidx]
  cases s.mem.read (byteAddress i s.idx.toNat) with
  | some b => exact .next (h.consume hp _ _)
  | none => exact .fault _

/-- All nine commands at once, since each runs through the shared steps. -/
theorem exec_sameOutcome (h : sameButLeftovers s t) (i : Instr) : SameOutcome (exec i s) (exec i t) := by
  rw [exec_eq_commandStep, exec_eq_commandStep]
  unfold commandStep
  rw [← h.phase_eq]
  cases hp : s.phase with
  | idle =>
    dsimp only
    split
    · exact .next (h.accept _ _)
    · exact .refused _
  | run =>
    obtain ⟨-, hr, hidx⟩ := h.latch_eq hp
    simp only [← hr, ← hidx]
    split
    · exact byteStep_sameOutcome h hp i _
    · split
      · exact .next (h.final _)
      · exact .fault _
  | done => exact .next h

theorem runDescriptor_sameOutcome (h : sameButLeftovers s t) (d : Desc) :
    SameOutcome (runDescriptor d s) (runDescriptor d t) := by
  unfold runDescriptor
  cases decode d with
  | command i => exact exec_sameOutcome h i
  | reserved => exact .refused _
  | outOfRange => exact .refused _

theorem idleTurn_sameOutcome (h : sameButLeftovers s t) : SameOutcome (idleTurn s) (idleTurn t) := by
  unfold idleTurn
  rw [← h.offers_eq]
  cases s.offers with
  | nil => exact .next h
  | cons d rest => exact runDescriptor_sameOutcome (h.setOffers rest) d

theorem doneTurn_sameOutcome (h : sameButLeftovers s t) (hp : s.phase = .done) : SameOutcome (doneTurn s) (doneTurn t) := by
  unfold doneTurn
  rw [← h.takes_eq]
  cases s.takes with
  | zero => exact .next h
  | succ k => exact .next ((h.setTakes k).deliver hp)

theorem engineTurn_sameOutcome (h : sameButLeftovers s t) : SameOutcome (engineTurn s) (engineTurn t) := by
  unfold engineTurn
  rw [← h.phase_eq]
  cases hp : s.phase with
  | idle => exact idleTurn_sameOutcome h
  | run =>
    obtain ⟨hcmd, -, -⟩ := h.latch_eq hp
    rw [← hcmd]
    exact runDescriptor_sameOutcome h s.cmd
  | done => exact doneTurn_sameOutcome h hp

theorem eventStep_sameOutcome (h : sameButLeftovers s t) (e : EnvEvent) : SameOutcome (eventStep e s) (eventStep e t) := by
  unfold eventStep
  rw [← h.mem_eq]
  cases e with
  | turn => exact engineTurn_sameOutcome h
  | reset => exact .next h.resetEngine
  | store a b => exact .next (h.setMem _)
  | withdraw a => exact .next (h.setMem _)

/-- `sameButLeftovers` is a simulation. -/
theorem step_sameOutcome (h : sameButLeftovers s t) : SameOutcome (step s) (step t) := by
  cases he : s.env with
  | nil =>
    rw [step_of_env_nil he, step_of_env_nil (h.env_eq ▸ he)]
    exact engineTurn_sameOutcome h
  | cons e rest =>
    rw [step_of_env_cons he, step_of_env_cons (h.env_eq ▸ he)]
    exact eventStep_sameOutcome (h.setEnv rest) e

end

/-- Settles O35: `sameButLeftovers` is a simulation (`step_sameOutcome`), and outcomes that are alike are what the statement asks. -/
theorem leftoversNeverMatter : Obligations.LeftoversNeverMatter :=
  fun _ _ h => (step_sameOutcome h).second_follows_first

end Sys2Proof.Machine

/-! ## The descriptor latched by ACCEPT (R57, R66)

The engine latches the encoding of the command that it decoded; that this is the offered descriptor, bit for bit, is shown word by
word from R66's table. -/

namespace Sys2Proof

/-- R66's mask `0xFFFFFFCF` clears the bits REFIN and REFOUT (R62) and no other: with them put back, the word is whole. -/
theorem and_mask_or_reflection_bits (c : Word) :
    c &&& 0xFFFFFFCF ||| (0#26 ++ BitVec.ofBool (refoutField c) ++ BitVec.ofBool (refinField c) ++ 0#4) = c := by
  apply BitVec.eq_of_getLsbD_eq
  intro k hk
  simp only [refinField, refoutField, BitVec.getLsbD_or, BitVec.getLsbD_and, BitVec.getLsbD_append]
  interval_cases k <;> simp

/-- `mkCtrl` places the reflection bits beside the bits of OP and WSEL (R62). -/
theorem mkCtrl_eq_or (f : Family) (w : Width) (refin refout : Bool) :
    mkCtrl f w refin refout =
      mkCtrl f w false false ||| (0#26 ++ BitVec.ofBool refout ++ BitVec.ofBool refin ++ 0#4) := by
  cases f <;> cases w <;> cases refin <;> cases refout <;> rfl

/-- A word that agrees with a CRC row outside REFIN and REFOUT is the `CTRL` word of that row with its own two bits. -/
theorem mkCtrl_crc_of_and_mask {c : Word} {w : Width} (h : c &&& 0xFFFFFFCF = mkCtrl .crc w false false) :
    mkCtrl .crc w (refinField c) (refoutField c) = c := by
  rw [mkCtrl_eq_or, ← h, and_mask_or_reflection_bits]

/-- The row that a word selects stands for a command whose `CTRL` word is that word: six rows fix every bit, and the three of the
CRC leave REFIN and REFOUT free (R66). -/
theorem mkCtrl_of_commandOf {c : Word} {o : Operands} {i : Instr} (h : commandOf c o = some i) :
    mkCtrl i.family i.width i.refin i.refout = c ∧ i.operands = o := by
  unfold commandOf at h
  obtain ⟨row, hrow, rfl⟩ := Option.map_eq_some_iff.mp h
  have hsel : c &&& row.mask = row.value := eq_of_beq (List.find?_some (p := selects c) hrow)
  have hmem : row ∈ opcodeRows := List.mem_of_find?_eq_some hrow
  simp only [opcodeRows, List.mem_cons, List.not_mem_nil, or_false] at hmem
  rcases hmem with rfl | rfl | rfl | rfl | rfl | rfl | rfl | rfl | rfl <;>
    dsimp only [Instr.family, Instr.width, Instr.refin, Instr.refout] at hsel ⊢
  iterate 6 · exact ⟨.trans (by decide) (hsel.symm.trans BitVec.and_allOnes), rfl⟩
  iterate 3 · exact ⟨mkCtrl_crc_of_and_mask (hsel.trans (by decide)), rfl⟩

/-- A descriptor that decodes to a command is that command's encoding. -/
theorem encode_of_decode_command {d : Desc} {i : Instr} (h : decode d = .command i) : encode i = d := by
  obtain ⟨-, hc, -⟩ := decode_command h
  obtain ⟨hctrl, hops⟩ := mkCtrl_of_commandOf hc
  rw [encode, hctrl, hops, mkDesc_words]

end Sys2Proof

/-! ## The state of the engine (R20 to R36)

What every turn of the engine keeps or moves is read off `engineTurn_next_cases`, and what every step does off `step_next_cases`. -/

namespace Sys2Proof.Machine

/-! ### The values a command computes fit its width (R25, R31) -/

/-- ACCEPT loads a W-bit value. -/
theorem loadOf_lt (i : Instr) : (loadOf i).toNat < 2 ^ i.width.bits := by
  cases i with
  | checksum8 | checksum16 | checksum32 => exact Nat.two_pow_pos _
  | _ => exact zext_lt _

/-- BYTE keeps `R` a W-bit value. A reflection, which has no BYTE step, leaves it as it is. -/
theorem updateOf_lt (i : Instr) {r : Word} (hr : r.toNat < 2 ^ i.width.bits) (b : Byte) :
    (updateOf i r b).toNat < 2 ^ i.width.bits := by
  cases i with
  | reflectBits8 | reflectBits16 | reflectBits32 => exact hr
  | _ => exact zext_lt _

/-- FINAL puts a W-bit value into `RES`. -/
theorem finishOf_lt (i : Instr) (r : Word) : (finishOf i r).toNat < 2 ^ i.width.bits := by
  cases i <;> exact zext_lt _

/-! ### BYTE advances the index (R24) -/

/-- Below `n_eff` the 32-bit counter `idx` does not wrap. -/
theorem toNat_add_one_of_lt_effLen {i : Instr} {x : Word} (h : x.toNat < effLen i) : (x + 1).toNat = x.toNat + 1 := by
  have hn : effLen i < 2 ^ 32 := effLen_lt i
  exact BitVec.toNat_add_of_lt (show x.toNat + 1 < 2 ^ 32 by omega)

/-- Settles O14: in RUN below `n_eff` the step is BYTE, which adds 1 to an index below `n_eff`. -/
theorem byteStepAdvancesIdxWithoutWrap : Obligations.ByteStepAdvancesIdxWithoutWrap := by
  intro i s t hp hi h
  rcases exec_next_cases h with ⟨hq, -⟩ | ⟨-, -, b, -, rfl⟩ | ⟨-, he, -⟩ | ⟨hq, -⟩
  · simp [hp] at hq
  · exact toNat_add_one_of_lt_effLen hi
  · omega
  · simp [hp] at hq

/-! ### The invariant (R25, R26) -/

section
variable {s : State}

/-- In IDLE the invariant asks only for the canonical form of the data space. -/
theorem inv_of_idle (hm : s.mem.wf) (hp : s.phase = .idle) : Inv s :=
  ⟨hm, .inl hp⟩

/-- What the invariant asks in RUN. -/
theorem inv_of_run {i : Instr} (hm : s.mem.wf) (hp : s.phase = .run) (hd : decode s.cmd = .command i)
    (hr : s.r.toNat < 2 ^ i.width.bits) (hi : s.idx.toNat ≤ effLen i) : Inv s :=
  ⟨hm, .inr ⟨i, hd, by simpa [latchInv, hp] using ⟨hr, hi⟩⟩⟩

/-- What the invariant asks in DONE. -/
theorem inv_of_done {i : Instr} (hm : s.mem.wf) (hp : s.phase = .done) (hd : decode s.cmd = .command i)
    (hres : s.res.toNat < 2 ^ i.width.bits) : Inv s :=
  ⟨hm, .inr ⟨i, hd, by simpa [latchInv, hp] using hres⟩⟩

theorem Inv.mem_wf (h : Inv s) : s.mem.wf :=
  let ⟨hm, _⟩ := h
  hm

/-- In RUN the register holds a value of the latched command's width. -/
theorem Inv.r_lt {i : Instr} (h : Inv s) (hp : s.phase = .run) (hd : decode s.cmd = .command i) :
    s.r.toNat < 2 ^ i.width.bits := by
  obtain ⟨-, hq | ⟨j, hj, hl⟩⟩ := h
  · simp [hp] at hq
  · cases hd.symm.trans hj
    simp only [latchInv, hp] at hl
    exact hl.left

theorem Inv.setEnv (h : Inv s) (l : List EnvEvent) : Inv (s.setEnv l) := h

/-- The environment may change the data space in any phase, as long as it keeps the canonical form. -/
theorem Inv.setMem (h : Inv s) {m : Memory} (hm : m.wf) : Inv (s.setMem m) :=
  let ⟨_, hlatch⟩ := h
  ⟨hm, hlatch⟩

/-- A turn of the engine keeps the invariant: no turn writes the data space, ACCEPT latches a legal command and loads a W-bit value,
BYTE and FINAL keep W-bit values, and after TAKE the engine is idle. -/
theorem engineTurn_keeps_inv {t : State} (hs : Inv s) (h : engineTurn s = .next t) : Inv t := by
  rcases engineTurn_next_cases h with ⟨-, d, rest, i, -, hd, -, rfl⟩ | ⟨hp, i, b, hd, hi, -, rfl⟩ | ⟨-, i, hd, -, rfl⟩ |
    ⟨-, k, -, rfl⟩ | ⟨-, rfl⟩
  · refine inv_of_run (i := i) hs.mem_wf rfl ?_ (loadOf_lt i) (Nat.zero_le _)
    rwa [State.accept_cmd, encode_of_decode_command hd]
  · refine inv_of_run hs.mem_wf hp hd (updateOf_lt i (hs.r_lt hp hd) b) ?_
    rw [State.consume_idx, toNat_add_one_of_lt_effLen hi]
    exact hi
  · exact inv_of_done hs.mem_wf rfl hd (finishOf_lt i s.r)
  · exact inv_of_idle hs.mem_wf rfl
  · exact hs

end

/-- Settles O31: a turn of the engine keeps the invariant (`engineTurn_keeps_inv`), a RESET leaves the engine idle, and a change of
the data space by its owner keeps the canonical form. -/
theorem stepKeepsInv : Obligations.StepKeepsInv := by
  intro s t hs h
  rcases step_next_cases h with ⟨rest, -, h⟩ | ⟨rest, -, rfl⟩ | ⟨rest, a, b, -, rfl⟩ | ⟨rest, a, -, rfl⟩
  · exact engineTurn_keeps_inv (hs.setEnv rest) h
  · exact inv_of_idle hs.mem_wf rfl
  · exact (hs.setEnv rest).setMem (Memory.wf_put hs.mem_wf a.isLt b)
  · exact (hs.setEnv rest).setMem (Memory.wf_drop hs.mem_wf a.toNat)

/-- Settles O30: the machine starts in IDLE with no address `Readable`. -/
theorem invHoldsAtReset : Obligations.InvHoldsAtReset :=
  inv_of_idle Memory.wf_nil rfl

/-! ### How phase and `CMD` move (R23, R26) -/

/-- A turn of the engine leaves the phase or moves it one place along R23's cycle. -/
theorem engineTurn_phase {s t : State} (h : engineTurn s = .next t) :
    t.phase = s.phase ∨ (s.phase = .idle ∧ t.phase = .run) ∨ (s.phase = .run ∧ t.phase = .done) ∨
      (s.phase = .done ∧ t.phase = .idle) := by
  rcases engineTurn_next_cases h with ⟨hp, d, rest, i, -, -, -, rfl⟩ | ⟨-, i, b, -, -, -, rfl⟩ | ⟨hp, i, -, -, rfl⟩ |
    ⟨hp, k, -, rfl⟩ | ⟨-, rfl⟩
  · exact .inr (.inl ⟨hp, rfl⟩)
  · exact .inl rfl
  · exact .inr (.inr (.inl ⟨hp, rfl⟩))
  · exact .inr (.inr (.inr ⟨hp, rfl⟩))
  · exact .inl rfl

/-- A turn of the engine leaves `CMD`, or is the ACCEPT that latches the first descriptor offered, whole. -/
theorem engineTurn_cmd {s t : State} (h : engineTurn s = .next t) :
    t.cmd = s.cmd ∨ (s.phase = .idle ∧ t.phase = .run ∧ s.offers.head? = some t.cmd) := by
  rcases engineTurn_next_cases h with ⟨hp, d, rest, i, ho, hd, -, rfl⟩ | ⟨-, i, b, -, -, -, rfl⟩ | ⟨-, i, -, -, rfl⟩ |
    ⟨-, k, -, rfl⟩ | ⟨-, rfl⟩
  · refine .inr ⟨hp, rfl, ?_⟩
    rw [ho, State.accept_cmd, encode_of_decode_command hd, List.head?_cons]
  all_goals exact .inl rfl

/-- Settles O23: a turn moves the phase along the cycle (`engineTurn_phase`), a RESET moves it to IDLE, and the other events leave it. -/
theorem phaseMovesOnlyAlongTheCycle : Obligations.PhaseMovesOnlyAlongTheCycle := by
  intro s t h
  rcases step_next_cases h with ⟨rest, -, h⟩ | ⟨rest, he, rfl⟩ | ⟨rest, a, b, -, rfl⟩ | ⟨rest, a, -, rfl⟩
  · rcases engineTurn_phase h with hp | hp | hp | hp
    · exact .inl hp
    · exact .inr (.inl hp)
    · exact .inr (.inr (.inl hp))
    · exact .inr (.inr (.inr (.inl hp)))
  · exact .inr (.inr (.inr (.inr ⟨by rw [he, List.head?_cons], rfl⟩)))
  · exact .inl rfl
  · exact .inl rfl

/-- Settles O24: of the turns only ACCEPT writes `CMD` (`engineTurn_cmd`), and of the events only RESET does. -/
theorem onlyAcceptAndResetWriteCmd : Obligations.OnlyAcceptAndResetWriteCmd := by
  intro s t h hne
  rcases step_next_cases h with ⟨rest, -, h⟩ | ⟨rest, he, rfl⟩ | ⟨rest, a, b, -, rfl⟩ | ⟨rest, a, -, rfl⟩
  · rcases engineTurn_cmd h with hcmd | haccept
    · exact absurd hcmd hne
    · exact .inr haccept
  · exact .inl (by rw [he, List.head?_cons])
  · exact absurd rfl hne
  · exact absurd rfl hne

/-! ### Lengths and status outputs -/

/-- Settles O18 (R27). -/
theorem effectiveLengthByFamily : Obligations.EffectiveLengthByFamily := by
  refine fun i => ⟨?_, effLen_of_reflect⟩
  rintro (hf | hf) <;> exact effLen_of_buffer (by simp [hf])

/-- Settles O21: the three outputs are functions of `phase`, which is IDLE after reset. -/
theorem afterResetTheEngineIsReady : Obligations.AfterResetTheEngineIsReady :=
  ⟨rfl, rfl, rfl, rfl⟩

/-- Settles O22: each output is a comparison of `phase` with one of the three phases, of which exactly one is the engine's. -/
theorem oneStatusOutputIsTrue : Obligations.OneStatusOutputIsTrue := by
  intro s
  refine ⟨?_, beq_iff_eq, beq_iff_eq, beq_iff_eq⟩
  unfold cmdReady busy resValid
  cases s.phase <;> rfl

end Sys2Proof.Machine

/-! ## The command that its encoding decodes to (R66, R72) -/

namespace Sys2Proof

/-- The decoder gives back a command that may be offered. -/
theorem decode_encode {i : Instr} (h : i.wellFormed = true) : decode (encode i) = .command i := by
  have hrow : Laws.SelectsRow.Statement i := by
    cases i with
    | checksum8 o => exact Laws.SelectsRow.checksum8 o
    | checksum16 o => exact Laws.SelectsRow.checksum16 o
    | checksum32 o => exact Laws.SelectsRow.checksum32 o
    | reflectBits8 o => exact Laws.SelectsRow.reflectBits8 o
    | reflectBits16 o => exact Laws.SelectsRow.reflectBits16 o
    | reflectBits32 o => exact Laws.SelectsRow.reflectBits32 o
    | crc8 refin refout o => exact Laws.SelectsRow.crc8 refin refout o
    | crc16 refin refout o => exact Laws.SelectsRow.crc16 refin refout o
    | crc32 refin refout o => exact Laws.SelectsRow.crc32 refin refout o
  rw [decode_of_commandOf (isReserved_encode i) hrow, if_pos h]

end Sys2Proof

/-! ## The data space (R40 to R54)

The engine reads one byte at a time and writes none; only the owner of the data space changes it. Hence a command whose buffer its
owner leaves alone computes a function of the bytes the buffer held when the command was offered. -/

namespace Sys2Proof.Machine

/-! ### Which command a turn runs, and where it reads -/

section
variable {s t : State} {i : Instr}

/-- In IDLE a turn runs the command first offered (R82). -/
theorem engineTurn_of_offer {d : Desc} {rest : List Desc} (hp : s.phase = .idle) (ho : s.offers = d :: rest)
    (hd : decode d = .command i) : engineTurn s = exec i (s.setOffers rest) := by
  simp [engineTurn, hp, idleTurn, ho, runDescriptor_command hd]

/-- In RUN a turn runs the latched command (R57). -/
theorem engineTurn_of_run (hp : s.phase = .run) (hd : decode s.cmd = .command i) : engineTurn s = exec i s := by
  simp [engineTurn, hp, runDescriptor_command hd]

/-- In DONE the engine stands while the host takes nothing (R88). -/
theorem engineTurn_of_done (hp : s.phase = .done) (ht : s.takes = 0) : engineTurn s = .next s := by
  simp [engineTurn, hp, doneTurn, ht]

/-- BYTE at an address that is not `Readable` (R43). -/
theorem exec_unreadable (hp : s.phase = .run) (hi : s.idx.toNat < effLen i)
    (hb : s.mem.read (byteAddress i s.idx.toNat) = none) :
    exec i s = .fault (.unreadableByte (byteAddress i s.idx.toNat)) := by
  simp [exec_eq_commandStep, commandStep, hp, hi, byteStep, hb]

/-- Only a command with a buffer has an index below `n_eff` (R27). -/
theorem family_ne_reflect_of_lt_effLen {k : Nat} (h : k < effLen i) : i.family ≠ .reflect := by
  intro hf
  rw [effLen_of_reflect hf] at h
  exact absurd h (Nat.not_lt_zero k)

/-- No turn writes the data space (R41). -/
theorem engineTurn_mem (h : engineTurn s = .next t) : t.mem = s.mem := by
  rcases engineTurn_next_cases h with ⟨-, _, _, _, -, -, -, rfl⟩ | ⟨-, _, _, -, -, -, rfl⟩ | ⟨-, _, -, -, rfl⟩ |
    ⟨-, _, -, rfl⟩ | ⟨-, rfl⟩
  all_goals rfl

/-- No turn changes what is listed for later. -/
theorem engineTurn_env (h : engineTurn s = .next t) : t.env = s.env := by
  rcases engineTurn_next_cases h with ⟨-, _, _, _, -, -, -, rfl⟩ | ⟨-, _, _, -, -, -, rfl⟩ | ⟨-, _, -, -, rfl⟩ |
    ⟨-, _, -, rfl⟩ | ⟨-, rfl⟩
  all_goals rfl

/-- Only TAKE, in DONE, touches what the host takes and has taken (R88). -/
theorem engineTurn_taken_of_ne_done (hp : s.phase ≠ .done) (h : engineTurn s = .next t) :
    t.takes = s.takes ∧ t.taken = s.taken := by
  rcases engineTurn_next_cases h with ⟨-, _, _, _, -, -, -, rfl⟩ | ⟨-, _, _, -, -, -, rfl⟩ | ⟨-, _, -, -, rfl⟩ |
    ⟨hd, _, -, rfl⟩ | ⟨-, rfl⟩
  case inr.inr.inr.inl => exact absurd hd hp
  all_goals exact ⟨rfl, rfl⟩

/-- Of the turns only BYTE reads: one byte, at `OPA + idx` with `idx < n_eff`, at a `Readable` address (R44, R84). -/
theorem engineTurn_reads (h : engineTurn s = .next t) :
    t.reads = s.reads ∨
      ∃ i, s.phase = .run ∧ decode s.cmd = .command i ∧ s.idx.toNat < effLen i ∧
        s.mem.readable (byteAddress i s.idx.toNat) = true ∧ t.reads = s.reads ++ [byteAddress i s.idx.toNat] := by
  rcases engineTurn_next_cases h with ⟨-, _, _, _, -, -, -, rfl⟩ | ⟨hp, i, b, hd, hi, hb, rfl⟩ | ⟨-, _, -, -, rfl⟩ |
    ⟨-, _, -, rfl⟩ | ⟨-, rfl⟩
  case inr.inl => exact .inr ⟨i, hp, hd, hi, by rw [Memory.readable, hb]; rfl, rfl⟩
  all_goals exact .inl rfl

end

/-- Settles O9: in RUN a turn runs the latched command (`engineTurn_of_run`), and the event list is no operand of it. -/
theorem stepRunsTheLatchedCommand : Obligations.StepRunsTheLatchedCommand := by
  refine fun s i hp hd => ⟨fun he => ?_, fun later he => ?_⟩
  · rw [step_of_env_nil he, engineTurn_of_run hp hd]
  · rw [step_of_isTurn (.inr he)]
    exact engineTurn_of_run hp hd

/-- Settles O15: below `n_eff` the command has a buffer, and `OPA + LEN <= 2^32` (R45). -/
theorem effectiveAddressFitsIn32Bits : Obligations.EffectiveAddressFitsIn32Bits := by
  intro i k hw hk
  have hf : i.family ≠ .reflect := family_ne_reflect_of_lt_effLen hk
  have hrange := (wellFormed_iff_range hf).mp hw
  rw [effLen_of_buffer hf] at hk
  unfold byteAddress
  omega

/-- Settles O16: below `LEN` the step is BYTE, and it finds no byte to read (`exec_unreadable`). -/
theorem unreadableByteFaults : Obligations.UnreadableByteFaults :=
  fun _ _ hf hp hi hb => exec_unreadable hp (by rwa [effLen_of_buffer hf]) hb

/-- Settles O25: a turn keeps the data space (`engineTurn_mem`), and so does a RESET; the two other events are excluded. -/
theorem engineNeverWritesMemory : Obligations.EngineNeverWritesMemory := by
  intro s t h hstore hwithdraw a
  rcases step_next_cases h with ⟨rest, -, h⟩ | ⟨rest, -, rfl⟩ | ⟨rest, x, b, he, -⟩ | ⟨rest, x, he, -⟩
  · rw [engineTurn_mem h, State.setEnv_mem]
  · rfl
  · exact absurd (by rw [he, List.head?_cons]) (hstore x b)
  · exact absurd (by rw [he, List.head?_cons]) (hwithdraw x)

/-- Settles O26: of the turns only BYTE reads (`engineTurn_reads`), and no event does. -/
theorem readsStayInsideTheBuffer : Obligations.ReadsStayInsideTheBuffer := by
  intro s t h
  rcases step_next_cases h with ⟨rest, -, h⟩ | ⟨rest, -, rfl⟩ | ⟨rest, a, b, -, rfl⟩ | ⟨rest, a, -, rfl⟩
  · rcases engineTurn_reads h with hr | ⟨i, hp, hd, hi, hread, hr⟩
    · exact .inl hr
    · have hf : i.family ≠ .reflect := family_ne_reflect_of_lt_effLen hi
      rw [effLen_of_buffer hf] at hi
      exact .inr ⟨i, hp, hd, hf, hi, hread, hr⟩
  all_goals exact .inl rfl

/-- Settles O29: the withdrawal drops one address of the data space (`Memory.drop`). -/
theorem environmentWithdrawalHidesOneByte : Obligations.EnvironmentWithdrawalHidesOneByte :=
  fun s a _ he =>
    ⟨s.mem.drop a.toNat, step_of_env_cons he, Memory.read_drop_same s.mem a.toNat, fun _ hx => Memory.read_drop_other s.mem hx⟩

/-! ### The bytes of a buffer (R44, R53) -/

section
variable {i : Instr} {m : Memory} {d : List Byte}

/-- The buffer holds `n_eff` bytes. -/
theorem length_of_bufferHolds (h : bufferHolds i m d) : d.length = effLen i := by
  simpa [bufferAddresses] using (congrArg List.length h).symm

/-- Byte `k` of the buffer is at `OPA + k` (R44). -/
theorem read_of_bufferHolds (h : bufferHolds i m d) {k : Nat} (hk : k < d.length) :
    m.read (byteAddress i k) = some d[k] := by
  have hn : k < effLen i := length_of_bufferHolds h ▸ hk
  simpa [bufferAddresses, hn, hk] using congrArg (·[k]?) h

/-- What happens to the data space outside the buffer does not matter. -/
theorem bufferHolds_of_read_eq {m' : Memory} (h : bufferHolds i m d)
    (heq : ∀ k < effLen i, m'.read (byteAddress i k) = m.read (byteAddress i k)) : bufferHolds i m' d := by
  refine Eq.trans (List.map_congr_left fun a ha => ?_) h
  obtain ⟨k, hk, rfl⟩ := List.mem_map.mp ha
  exact heq k (List.mem_range.mp hk)

/-- An address outside `[OPA, OPA + n_eff)` is none of the buffer's. -/
theorem byteAddress_ne_of_outside {a k : Nat} (h : ¬(byteAddress i 0 ≤ a ∧ a < byteAddress i (effLen i))) (hk : k < effLen i) :
    byteAddress i k ≠ a := by
  unfold byteAddress at h ⊢
  omega

/-- A write outside the buffer leaves its bytes. -/
theorem bufferHolds_put {a : Word} {b : Byte} (h : bufferHolds i m d) (ha : touchesBuffer i (.store a b) = false) :
    bufferHolds i (m.put a.toNat b) d :=
  bufferHolds_of_read_eq h fun _ hk =>
    Memory.read_put_other m b (byteAddress_ne_of_outside (of_decide_eq_false ha) hk)

/-- A withdrawal outside the buffer leaves its bytes. -/
theorem bufferHolds_drop {a : Word} (h : bufferHolds i m d) (ha : touchesBuffer i (.withdraw a) = false) :
    bufferHolds i (m.drop a.toNat) d :=
  bufferHolds_of_read_eq h fun _ hk =>
    Memory.read_drop_other m (byteAddress_ne_of_outside (of_decide_eq_false ha) hk)

end

/-! ### The register after the bytes read so far (R91) -/

/-- Updates of the low `n` bits of a word are updates of an `n`-bit value. -/
theorem foldl_zext {n : Nat} (hn : n ≤ 32) (f : BitVec n → Byte → BitVec n) (x : BitVec n) (d : List Byte) :
    d.foldl (fun r b => zext (f (trunc n r) b)) (zext x) = zext (d.foldl f x) :=
  List.foldl_hom zext fun y b => by rw [trunc_zext hn]

/-- The register of command `i` after ACCEPT and the bytes `d`. -/
def registerAfter (i : Instr) (d : List Byte) : Word := d.foldl (updateOf i) (loadOf i)

/-- BYTE, one byte further. -/
theorem registerAfter_append (i : Instr) (d : List Byte) (b : Byte) :
    registerAfter i (d ++ [b]) = updateOf i (registerAfter i d) b :=
  List.foldl_concat ..

/-- FINAL of a checksum copies the sum (R101). -/
theorem zext_trunc_foldl_sumStep {n : Nat} (hn : n ≤ 32) (d : List Byte) :
    zext (trunc n (d.foldl (fun r b => zext (sumStep (trunc n r) b)) 0)) = zext (checksumOf n d) := by
  have hzero : (0 : Word) = zext (0 : BitVec n) := BitVec.setWidth_zero 32 n |>.symm
  rw [hzero, foldl_zext hn sumStep, trunc_zext hn, checksumOf]

/-- FINAL of a CRC applies `crc_final` to the register of R125. -/
theorem zext_crcFinal_foldl_crcByte {n : Nat} (hn : n ≤ 32) (p : CrcParams n) (d : List Byte) :
    zext (crcFinal (trunc n (d.foldl (fun r b => zext (crcByte (trunc n r) b p.refin p.poly)) (zext p.init))) p.xorout p.refout) =
      zext (crcOf p d) := by
  rw [foldl_zext hn (fun r b => crcByte r b p.refin p.poly), trunc_zext hn, crcOf, crcRegister]

/-- FINAL of a reflection reflects the value loaded (R111). -/
theorem zext_reflect_foldl_const {n : Nat} (hn : n ≤ 32) (v : BitVec n) (d : List Byte) :
    zext (reflect (trunc n (d.foldl (fun r _ => r) (zext v)))) = zext (reflect v) := by
  rw [List.foldl_fixed, trunc_zext hn]

/-- FINAL after the bytes `d` gives the command's result (R91). -/
theorem finishOf_registerAfter (i : Instr) (d : List Byte) : finishOf i (registerAfter i d) = resultOf i d := by
  cases i with
  | checksum8 o => exact zext_trunc_foldl_sumStep (by decide) d
  | checksum16 o => exact zext_trunc_foldl_sumStep (by decide) d
  | checksum32 o => exact zext_trunc_foldl_sumStep (by decide) d
  | reflectBits8 o => exact zext_reflect_foldl_const (by decide) (valueOperand 8 o) d
  | reflectBits16 o => exact zext_reflect_foldl_const (by decide) (valueOperand 16 o) d
  | reflectBits32 o => exact zext_reflect_foldl_const (by decide) (valueOperand 32 o) d
  | crc8 refin refout o => exact zext_crcFinal_foldl_crcByte (by decide) (crcParams 8 refin refout o) d
  | crc16 refin refout o => exact zext_crcFinal_foldl_crcByte (by decide) (crcParams 16 refin refout o) d
  | crc32 refin refout o => exact zext_crcFinal_foldl_crcByte (by decide) (crcParams 32 refin refout o) d

/-! ### A whole command, turn by turn (R53, R91) -/

/-- The engine is on its way through command `i`, whose buffer holds `d`, with that many turns to go to DONE. The host's further offers
are `rest`, and `reads` were made before. -/
inductive Underway (i : Instr) (d : List Byte) (rest : List Desc) (reads : List Nat) : Nat → State → Prop where
  /-- ACCEPT is next. -/
  | offered {s : State} (hphase : s.phase = .idle) (hoffers : s.offers = encode i :: rest) (hreads : s.reads = reads) :
      Underway i d rest reads (d.length + 2) s
  /-- The bytes `before` have been read, the bytes `ahead` have not; BYTE is next, or FINAL if there are none. -/
  | running {s : State} (before ahead : List Byte) (hbytes : before ++ ahead = d) (hphase : s.phase = .run)
      (hoffers : s.offers = rest) (hcmd : s.cmd = encode i) (hidx : s.idx.toNat = before.length)
      (hr : s.r = registerAfter i before) (hreads : s.reads = reads ++ (List.range before.length).map (byteAddress i)) :
      Underway i d rest reads (ahead.length + 1) s
  /-- The result stands in `RES`. -/
  | finished {s : State} (hphase : s.phase = .done) (hoffers : s.offers = rest) (hres : s.res = resultOf i d)
      (hreads : s.reads = reads ++ bufferAddresses i) : Underway i d rest reads 0 s

section
variable {i : Instr} {d : List Byte} {rest : List Desc} {reads : List Nat} {left : Nat} {s : State}

theorem Underway.setEnv (h : Underway i d rest reads left s) (l : List EnvEvent) :
    Underway i d rest reads left (s.setEnv l) := by
  cases h with
  | offered hphase hoffers hreads => exact .offered hphase hoffers hreads
  | running before ahead hbytes hphase hoffers hcmd hidx hr hreads =>
    exact .running before ahead hbytes hphase hoffers hcmd hidx hr hreads
  | finished hphase hoffers hres hreads => exact .finished hphase hoffers hres hreads

theorem Underway.setMem (h : Underway i d rest reads left s) (m : Memory) :
    Underway i d rest reads left (s.setMem m) := by
  cases h with
  | offered hphase hoffers hreads => exact .offered hphase hoffers hreads
  | running before ahead hbytes hphase hoffers hcmd hidx hr hreads =>
    exact .running before ahead hbytes hphase hoffers hcmd hidx hr hreads
  | finished hphase hoffers hres hreads => exact .finished hphase hoffers hres hreads

/-- With a turn to go the engine is not in DONE. -/
theorem Underway.phase_ne_done (h : Underway i d rest reads (left + 1) s) : s.phase ≠ .done := by
  cases h with
  | offered hphase => simp [hphase]
  | running _ _ _ hphase => simp [hphase]

/-- In RUN the next turn is BYTE, or FINAL after the last byte. -/
theorem engineTurn_of_running (hw : i.wellFormed = true) (hm : bufferHolds i s.mem d) {before ahead : List Byte}
    (hbytes : before ++ ahead = d) (hphase : s.phase = .run) (hoffers : s.offers = rest) (hcmd : s.cmd = encode i)
    (hidx : s.idx.toNat = before.length) (hr : s.r = registerAfter i before)
    (hreads : s.reads = reads ++ (List.range before.length).map (byteAddress i)) :
    ∃ t, engineTurn s = .next t ∧ Underway i d rest reads ahead.length t := by
  have hlen : d.length = effLen i := length_of_bufferHolds hm
  rw [engineTurn_of_run hphase (hcmd ▸ decode_encode hw)]
  cases ahead with
  | nil =>
    rw [List.append_nil] at hbytes
    subst hbytes
    refine ⟨_, exec_final hphase (hidx.trans hlen), .finished rfl hoffers ?_ ?_⟩
    · rw [State.final_res, hr, finishOf_registerAfter]
    · rw [State.final_reads, hreads, hlen, bufferAddresses]
  | cons b ahead =>
    have hlt : before.length < d.length := by simp [← hbytes]
    have hread : s.mem.read (byteAddress i s.idx.toNat) = some b := by
      rw [hidx, read_of_bufferHolds hm hlt]
      simp [← hbytes]
    have hi : s.idx.toNat < effLen i := hidx ▸ hlen ▸ hlt
    refine ⟨_, exec_byte hphase hi hread,
      .running (before ++ [b]) ahead (by simpa using hbytes) hphase hoffers hcmd ?_ ?_ ?_⟩
    · rw [State.consume_idx, toNat_add_one_of_lt_effLen hi, hidx, List.length_append, List.length_singleton]
    · rw [State.consume_r, hr, registerAfter_append]
    · simp [hreads, hidx, List.range_succ]

/-- A turn of the engine brings the command one turn nearer to DONE. -/
theorem Underway.engineTurn_next (hw : i.wellFormed = true) (hm : bufferHolds i s.mem d)
    (h : Underway i d rest reads (left + 1) s) :
    ∃ t, engineTurn s = .next t ∧ Underway i d rest reads left t := by
  cases h with
  | offered hphase hoffers hreads =>
    rw [engineTurn_of_offer hphase hoffers (decode_encode hw)]
    exact ⟨_, exec_accept hphase hw, .running [] d rfl rfl rfl rfl rfl rfl (by simpa using hreads)⟩
  | running before ahead hbytes hphase hoffers hcmd hidx hr hreads =>
    exact engineTurn_of_running hw hm hbytes hphase hoffers hcmd hidx hr hreads

end

/-! ### A whole command beside a quiet environment (R53) -/

/-- A command underway, with a host that takes no result and an environment that keeps off the buffer. `taken` was received before. -/
structure Undisturbed (i : Instr) (d : List Byte) (rest : List Desc) (reads : List Nat) (taken : List Word) (left : Nat)
    (s : State) : Prop where
  underway : Underway i d rest reads left s
  buffer : bufferHolds i s.mem d
  quiet : quietFor i s.env
  takes : s.takes = 0
  taken : s.taken = taken

section
variable {i : Instr} {d : List Byte} {rest : List Desc} {reads : List Nat} {taken : List Word} {left : Nat} {s : State}

/-- A turn brings the command one turn nearer to DONE, where it stays. -/
theorem Undisturbed.engineTurn_next (hw : i.wellFormed = true) (h : Undisturbed i d rest reads taken left s) :
    ∃ t, engineTurn s = .next t ∧ Undisturbed i d rest reads taken (left - 1) t ∧ t.env = s.env := by
  have ⟨hu, hbuffer, hquiet, htakes, htaken⟩ := h
  cases left with
  | zero =>
    have hdone : s.phase = .done := by cases hu; assumption
    exact ⟨s, engineTurn_of_done hdone htakes, h, rfl⟩
  | succ left =>
    obtain ⟨t, ht, hu'⟩ := hu.engineTurn_next hw hbuffer
    obtain ⟨htakes', htaken'⟩ := engineTurn_taken_of_ne_done hu.phase_ne_done ht
    have henv : t.env = s.env := engineTurn_env ht
    exact ⟨t, ht, ⟨hu', engineTurn_mem ht ▸ hbuffer, henv ▸ hquiet, htakes'.trans htakes, htaken'.trans htaken⟩, henv⟩

/-- A step uses up a turn that the command needs, or an event. -/
theorem Undisturbed.step_next (hw : i.wellFormed = true) (h : Undisturbed i d rest reads taken left s) :
    ∃ t left', step s = .next t ∧ Undisturbed i d rest reads taken left' t ∧
      t.env.length + left' ≤ s.env.length + left - 1 := by
  have ⟨hu, hbuffer, hquiet, htakes, htaken⟩ := h
  cases he : s.env with
  | nil =>
    obtain ⟨t, ht, hnext, henv⟩ := h.engineTurn_next hw
    exact ⟨t, left - 1, (step_of_env_nil he).trans ht, hnext, by simp [henv, he]⟩
  | cons e later =>
    rw [step_of_env_cons he]
    rw [he] at hquiet
    obtain ⟨⟨hreset, hoff⟩, hlater⟩ := List.forall_mem_cons.mp hquiet
    have hrest : Undisturbed i d rest reads taken left (s.setEnv later) := ⟨hu.setEnv later, hbuffer, hlater, htakes, htaken⟩
    cases e with
    | turn =>
      obtain ⟨t, ht, hnext, henv⟩ := hrest.engineTurn_next hw
      exact ⟨t, left - 1, ht, hnext, by simp [henv]⟩
    | reset => exact absurd rfl hreset
    | store a b =>
      exact ⟨_, left, rfl, ⟨(hu.setEnv later).setMem _, bufferHolds_put hbuffer hoff, hlater, htakes, htaken⟩, by simp⟩
    | withdraw a =>
      exact ⟨_, left, rfl, ⟨(hu.setEnv later).setMem _, bufferHolds_drop hbuffer hoff, hlater, htakes, htaken⟩, by simp⟩

/-- Once the events are over and the command has had its turns, it has finished. -/
theorem Undisturbed.runFor_finished (hw : i.wellFormed = true) {n : Nat} (h : Undisturbed i d rest reads taken left s)
    (hn : s.env.length + left ≤ n) : ∃ t, runFor n s = .next t ∧ Undisturbed i d rest reads taken 0 t := by
  induction n generalizing left s with
  | zero =>
    obtain rfl : left = 0 := by omega
    exact ⟨s, runFor_zero s, h⟩
  | succ n ih =>
    obtain ⟨u, left', hu, hnext, hless⟩ := h.step_next hw
    rw [runFor_succ_of_next hu]
    exact ih hnext (by omega)

end

/-- Settles O34: the command is underway and undisturbed, every step uses up an event or a needed turn (`Undisturbed.step_next`), and so
after the events and the turns the command has finished. -/
theorem stableBufferGivesThePureResult : Obligations.StableBufferGivesThePureResult := by
  intro i d s rest hw hphase hquiet hoffers htakes hbuffer
  have hstart : Undisturbed i d rest s.reads s.taken (d.length + 2) s :=
    ⟨.offered hphase hoffers rfl, hbuffer, hquiet, htakes, rfl⟩
  obtain ⟨t, hrun, hu, -, -, -, htaken⟩ :=
    hstart.runFor_finished hw (n := s.env.length + effLen i + 2) (by rw [length_of_bufferHolds hbuffer]; omega)
  cases hu with
  | finished hdone _ hres hreads => exact ⟨t, hrun, hdone, hres, hreads, htaken⟩

end Sys2Proof.Machine

/-! ## The encoding (R60 to R74)

The verdicts are read off the number that `CTRL` is: below `2^6` there are 64 such words, and from `2^6` on none is a command's (R62). -/

namespace Sys2Proof

/-! ### The fields of a descriptor as numbers (R61, R62) -/

theorem descWord_toNat (d : Desc) (j : Nat) : (descWord d j).toNat = d.toNat / 2 ^ (32 * j) % 2 ^ 32 := by
  rw [descWord, BitVec.extractLsb'_toNat, Nat.shiftRight_eq_div_pow]

@[simp] theorem ctrlOf_toNat (d : Desc) : (ctrlOf d).toNat = d.toNat % 2 ^ 32 := by
  rw [ctrlOf, descWord_toNat, Nat.mul_zero, Nat.pow_zero, Nat.div_one]

theorem opField_toNat (c : Word) : (opField c).toNat = c.toNat % 4 := by
  rw [opField, BitVec.extractLsb'_toNat, Nat.shiftRight_zero]

theorem wselField_toNat (c : Word) : (wselField c).toNat = c.toNat / 4 % 4 := by
  rw [wselField, BitVec.extractLsb'_toNat, Nat.shiftRight_eq_div_pow]

theorem reservedField_toNat (c : Word) : (reservedField c).toNat = c.toNat / 2 ^ 6 := by
  rw [reservedField, BitVec.extractLsb'_toNat, Nat.shiftRight_eq_div_pow]
  omega

/-- REFIN and REFOUT are bits 4 and 5, so that one of them is set when the number in bits 5:4 is not 0. -/
theorem reflectionBit_iff (c : Word) : refinField c = true ∨ refoutField c = true ↔ c.toNat / 16 % 4 ≠ 0 := by
  simp only [refinField, refoutField, BitVec.getLsbD, Nat.testBit_eq_decide_div_mod_eq, decide_eq_true_eq]
  omega

/-- R69 (a) to (d), on the number that `CTRL` is. -/
theorem isReserved_iff (c : Word) :
    isReserved c = true ↔
      c.toNat / 2 ^ 6 ≠ 0 ∨ c.toNat % 4 = 0 ∨ c.toNat / 4 % 4 = 3 ∨
        ((c.toNat % 4 = 1 ∨ c.toNat % 4 = 2) ∧ c.toNat / 16 % 4 ≠ 0) := by
  simp only [isReserved, Bool.or_eq_true, Bool.and_eq_true, bne_iff_ne, beq_iff_eq, ← BitVec.toNat_inj, ne_eq, or_assoc,
    reservedField_toNat, opField_toNat, wselField_toNat, reflectionBit_iff]
  rfl

/-! ### The row that a `CTRL` word selects (R66) -/

/-- Every mask of R66's table keeps the bits 31:6, which are zero in every match: a row selects words below `2^6` only. -/
theorem toNat_lt_of_selects {c : Word} {row : OpcodeRow} (hmem : row ∈ opcodeRows) (hsel : selects c row = true) :
    c.toNat < 2 ^ 6 := by
  have hrow : reservedField row.mask = BitVec.allOnes 26 ∧ reservedField row.value = 0 := by
    simp only [opcodeRows, List.mem_cons, List.not_mem_nil, or_false] at hmem
    rcases hmem with rfl | rfl | rfl | rfl | rfl | rfl | rfl | rfl | rfl <;> decide
  obtain ⟨hmask, hvalue⟩ := hrow
  have hzero : reservedField c = 0 := by
    calc reservedField c
        = reservedField c &&& reservedField row.mask := by rw [hmask, BitVec.and_allOnes]
      _ = reservedField (c &&& row.mask) := BitVec.extractLsb'_and.symm
      _ = 0 := by rw [eq_of_beq hsel, hvalue]
  have hdiv : c.toNat / 2 ^ 6 = 0 := by rw [← reservedField_toNat, hzero]; rfl
  omega

/-- Of the 64 words below `2^6` each selects one row, unless it is reserved. -/
theorem length_filter_selects_of_lt :
    ∀ k : Fin 64, (opcodeRows.filter (selects (BitVec.ofNat 32 k))).length = if isReserved (BitVec.ofNat 32 k) then 0 else 1 := by
  decide

/-- No two rows overlap, and together they miss the reserved words only. -/
theorem length_filter_selects (c : Word) : (opcodeRows.filter (selects c)).length = if isReserved c then 0 else 1 := by
  by_cases hc : c.toNat < 2 ^ 6
  · simpa using length_filter_selects_of_lt ⟨c.toNat, hc⟩
  · have hres : isReserved c = true := (isReserved_iff c).mpr (.inl (by omega))
    have hnone : opcodeRows.filter (selects c) = [] :=
      List.filter_eq_nil_iff.mpr fun _ hmem hsel => hc (toNat_lt_of_selects hmem hsel)
    rw [hnone, if_pos hres, List.length_nil]

/-- A word that is not reserved stands for a command. -/
theorem exists_commandOf {c : Word} (h : isReserved c = false) (o : Operands) : ∃ i, commandOf c o = some i := by
  have hone : (opcodeRows.filter (selects c)).length = 1 := by rw [length_filter_selects, h]; rfl
  obtain ⟨row, hrow⟩ := List.length_eq_one_iff.mp hone
  have hfind : rowOf c = some row := by rw [rowOf, ← List.head?_filter, hrow, List.head?_cons]
  exact ⟨_, by rw [commandOf, hfind, Option.map_some]⟩

/-! ### The verdicts of the decoder (R69, R72) -/

/-- The decoder says `Reserved`, or it knows the command and says whether that is in range. -/
theorem decode_cases (d : Desc) :
    (isReserved (ctrlOf d) = true ∧ decode d = .reserved) ∨
    (isReserved (ctrlOf d) = false ∧ ∃ i, commandOf (ctrlOf d) (operandsOf d) = some i ∧
      decode d = if i.wellFormed then .command i else .outOfRange) := by
  cases hr : isReserved (ctrlOf d) with
  | true => exact .inl ⟨rfl, if_pos hr⟩
  | false =>
    obtain ⟨i, hi⟩ := exists_commandOf hr (operandsOf d)
    exact .inr ⟨rfl, i, hi, decode_of_commandOf hr hi⟩

/-- The verdict `Reserved` depends on `CTRL` only. -/
theorem decode_eq_reserved_iff (d : Desc) : decode d = .reserved ↔ isReserved (ctrlOf d) = true := by
  rcases decode_cases d with ⟨hr, hd⟩ | ⟨hr, i, -, hd⟩
  · simp [hr, hd]
  · cases hw : i.wellFormed <;> simp [hr, hd, hw]

/-- A command is out of range when it reads a buffer that ends above `2^32` (R45). -/
theorem wellFormed_eq_false_iff (i : Instr) :
    i.wellFormed = false ↔ i.family ≠ .reflect ∧ 2 ^ 32 < i.operands.opa.toNat + i.operands.len.toNat := by
  by_cases hf : i.family = .reflect
  · simp [wellFormed_of_reflect hf, hf]
  · rw [← Bool.not_eq_true, wellFormed_iff_range hf, Nat.not_le, and_iff_right hf]

/-- `OP` of a `CTRL` word the encoder makes (R64). -/
@[simp] theorem opField_mkCtrl (f : Family) (w : Width) (refin refout : Bool) : opField (mkCtrl f w refin refout) = opCode f := by
  cases f <;> cases w <;> cases refin <;> cases refout <;> rfl

/-- The families that read a buffer have `OP` 1 and 3 (R64). -/
theorem family_ne_reflect_iff (f : Family) : f ≠ .reflect ↔ (opCode f).toNat = 1 ∨ (opCode f).toNat = 3 := by
  cases f <;> decide

/-- The command that a `CTRL` word and operand words stand for is out of range exactly in case (e) of R69. -/
theorem wellFormed_eq_false_of_commandOf {c : Word} {o : Operands} {i : Instr} (h : commandOf c o = some i) :
    i.wellFormed = false ↔ (c.toNat % 4 = 1 ∨ c.toNat % 4 = 3) ∧ 2 ^ 32 < o.opa.toNat + o.len.toNat := by
  obtain ⟨rfl, rfl⟩ := mkCtrl_of_commandOf h
  rw [wellFormed_eq_false_iff, family_ne_reflect_iff, ← opField_toNat, opField_mkCtrl]

/-- Settles O1: the encoding selects the command's own row and is not reserved (`decode_encode`). -/
theorem decodeOfEncodeIsTheCommand : Obligations.DecodeOfEncodeIsTheCommand :=
  fun _ => decode_encode

/-- Settles O2: the decoder checks the range, and R66's row gives every bit of `CTRL` back (`encode_of_decode_command`). -/
theorem encodeOfDecodeIsTheDescriptor : Obligations.EncodeOfDecodeIsTheDescriptor := by
  intro d i h
  obtain ⟨-, -, hw⟩ := decode_command h
  exact ⟨hw, encode_of_decode_command h⟩

/-- Settles O3: a word that is not reserved stands for a command, so that the decoder says `Reserved` of no other. -/
theorem reservedExactlyAsListed : Obligations.ReservedExactlyAsListed := by
  intro d
  rw [decode_eq_reserved_iff, isReserved_iff, ctrlOf_toNat]

/-- Settles O4: what is not reserved stands for a command, whose family is `OP` and whose operands are the descriptor's. -/
theorem outOfRangeExactlyAsListed : Obligations.OutOfRangeExactlyAsListed := by
  intro d
  rcases decode_cases d with ⟨-, hd⟩ | ⟨-, i, hi, hd⟩
  · simp [hd]
  · have hout : decode d = .outOfRange ↔ i.wellFormed = false := by
      rw [hd]; cases i.wellFormed <;> simp
    have hnot : decode d ≠ .reserved := by
      rw [hd]; cases i.wellFormed <;> simp
    have hopa : (operandsOf d).opa.toNat = d.toNat / 2 ^ 128 % 2 ^ 32 := descWord_toNat d 4
    have hlen : (operandsOf d).len.toNat = d.toNat / 2 ^ 160 :=
      (descWord_toNat d 5).trans (Nat.mod_eq_of_lt (by have := d.isLt; omega))
    rw [hout, and_iff_right hnot, wellFormed_eq_false_of_commandOf hi, hopa, hlen, ctrlOf_toNat,
      Nat.mod_mod_of_dvd _ (by decide : 4 ∣ 2 ^ 32)]

/-- Settles O5, for the 64 words below `2^6` and for the others (`length_filter_selects`). -/
theorem controlWordSelectsOneRowUnlessReserved : Obligations.ControlWordSelectsOneRowUnlessReserved :=
  length_filter_selects

/-! ### Where the arguments of a call stand (R61, R62, R74) -/

@[simp] theorem refinField_mkCtrl (f : Family) (w : Width) (refin refout : Bool) :
    refinField (mkCtrl f w refin refout) = refin := by
  cases f <;> cases w <;> cases refin <;> cases refout <;> rfl

@[simp] theorem refoutField_mkCtrl (f : Family) (w : Width) (refin refout : Bool) :
    refoutField (mkCtrl f w refin refout) = refout := by
  cases f <;> cases w <;> cases refin <;> cases refout <;> rfl

/-- Bit 4 of an encoding is the command's REFIN. -/
theorem encode_getLsbD_four (i : Instr) : (encode i).getLsbD 4 = i.refin := by
  rw [← descWord_getLsbD _ 0 4 (by decide)]
  exact (congrArg refinField (ctrlOf_encode i)).trans (refinField_mkCtrl ..)

/-- Bit 5 of an encoding is the command's REFOUT. -/
theorem encode_getLsbD_five (i : Instr) : (encode i).getLsbD 5 = i.refout := by
  rw [← descWord_getLsbD _ 0 5 (by decide)]
  exact (congrArg refoutField (ctrlOf_encode i)).trans (refoutField_mkCtrl ..)

end Sys2Proof

namespace Sys2Proof.Machine

/-- A CRC call of any width assembles to a command with the arguments' words and reflection bits. -/
theorem assemble_crc (w : Width) (c : CrcConfig) (data length : Word) :
    (assemble (.crc w c data length)).operands = crcOperands c data length ∧
    (assemble (.crc w c data length)).refin = c.reflectInput ∧ (assemble (.crc w c data length)).refout = c.reflectOutput := by
  cases w <;> exact ⟨rfl, rfl, rfl⟩

/-- Settles O7: words 1 to 5 of an encoding are the command's operands, and bits 4 and 5 its reflection bits. -/
theorem crcCallFieldsReachTheirDescriptorBits : Obligations.CrcCallFieldsReachTheirDescriptorBits := by
  intro w c data length d
  obtain ⟨hops, hin, hout⟩ := assemble_crc w c data length
  have hwords : operandsOf d = crcOperands c data length := (operandsOf_encode _).trans hops
  exact ⟨congrArg Operands.poly hwords, congrArg Operands.init hwords, congrArg Operands.xorout hwords,
    congrArg Operands.opa hwords, congrArg Operands.len hwords, (encode_getLsbD_four _).trans hin,
    (encode_getLsbD_five _).trans hout⟩

/-! ### The word that the host offers (R60, R82) -/

/-- What the opcode table's numbering reads is what the decoder reads. -/
theorem decode_of_decodeTableWord {nbits w : Nat} {i : Instr} (h : decodeTableWord nbits w = some i) :
    decode (BitVec.ofNat 192 (w % 2 ^ nbits)) = .command i := by
  unfold decodeTableWord at h
  split at h
  · cases h
    assumption
  · cases h
  · cases h

/-- Settles O10: the turn listed first runs the command offered first (`engineTurn_of_offer`), and with it the listed turn and the
offer are used up. -/
theorem stepAfterWithFetchWordRunsTheWord : Obligations.StepAfterWithFetchWordRunsTheWord := by
  intro s w i h
  calc step (s.withFetchWord 192 w)
      = engineTurn ((s.withFetchWord 192 w).setEnv s.env) := step_of_isTurn (.inr rfl)
    _ = exec i (((s.withFetchWord 192 w).setEnv s.env).setOffers s.offers) :=
        engineTurn_of_offer rfl rfl (decode_of_decodeTableWord h)
    _ = exec i { s with phase := .idle } := rfl

/-! ### Operand bits that no result depends on (R67, R70) -/

/-- A configuration takes the low `n` bits of POLY, INIT and XOROUT and nothing else of the operand words (R67). -/
theorem crcParams_congr {n : Nat} {o p : Operands} (refin refout : Bool)
    (h : trunc n o.poly = trunc n p.poly ∧ trunc n o.init = trunc n p.init ∧ trunc n o.xorout = trunc n p.xorout) :
    crcParams n refin refout o = crcParams n refin refout p := by
  obtain ⟨hpoly, hinit, hxorout⟩ := h
  simp only [crcParams, polyOperand, initOperand, xoroutOperand, hpoly, hinit, hxorout]

/-- Settles O52: `resultOf` sees the operand words through `valueOperand` and `crcParams` only. -/
theorem resultIgnoresUnusedOperandBits : Obligations.ResultIgnoresUnusedOperandBits := by
  intro o p d refin refout
  refine ⟨⟨rfl, rfl, rfl⟩, fun h => ?_, fun h => ?_, fun h => ?_, fun h => ?_⟩
  · exact congrArg (fun v => zext (reflect v)) h
  · exact congrArg (fun v => zext (reflect v)) h
  · exact congrArg (fun c => zext (crcOf c d)) (crcParams_congr refin refout h)
  · exact congrArg (fun c => zext (crcOf c d)) (crcParams_congr refin refout h)

end Sys2Proof.Machine

/-! ## The steps of a command (R80 to R92)

What ACCEPT loads, BYTE updates and FINAL computes is written out by family; every claim about one step is then read off `exec_accept`,
`exec_byte`, `exec_final` or `exec_next_cases`, and a whole command is a chain of `Underway` turns closed by TAKE. -/

namespace Sys2Proof.Machine

/-! ### ACCEPT (R82, R83) -/

section
variable {s t : State}

/-- In IDLE a turn is the next step of the descriptor first offered, which is off the list then, whatever its verdict. -/
theorem engineTurn_of_idle_cons {d : Desc} {rest : List Desc} (hp : s.phase = .idle) (ho : s.offers = d :: rest) :
    engineTurn s = runDescriptor d (s.setOffers rest) := by
  simp [engineTurn, hp, idleTurn, ho]

theorem runDescriptor_reserved {d : Desc} (h : decode d = .reserved) (s : State) :
    runDescriptor d s = .refused .reservedDescriptor := by
  simp [runDescriptor, h]

theorem runDescriptor_outOfRange {d : Desc} (h : decode d = .outOfRange) (s : State) :
    runDescriptor d s = .refused .outOfRange := by
  simp [runDescriptor, h]

/-- A command out of range has no ACCEPT (R83). -/
theorem exec_outOfRange {i : Instr} (hp : s.phase = .idle) (hw : i.wellFormed = false) :
    exec i s = .refused .outOfRange := by
  simp [exec_eq_commandStep, commandStep, hp, hw]

/-- Only ACCEPT, in IDLE, takes an offer (R82). -/
theorem engineTurn_offers_of_ne_idle (hp : s.phase ≠ .idle) (h : engineTurn s = .next t) : t.offers = s.offers := by
  rcases engineTurn_next_cases h with ⟨hi, -⟩ | ⟨-, _, _, -, -, -, rfl⟩ | ⟨-, _, -, -, rfl⟩ | ⟨-, _, -, rfl⟩ | ⟨-, rfl⟩
  · exact absurd hi hp
  all_goals rfl

end

/-- Settles O8: in IDLE a turn runs the command first offered (`engineTurn_of_offer`), and a listed turn is used up with it. -/
theorem stepRunsTheOfferedCommand : Obligations.StepRunsTheOfferedCommand := by
  refine fun s d rest i hp ho hd => ⟨fun he => ?_, fun later he => ?_⟩
  · rw [step_of_env_nil he, engineTurn_of_offer hp ho hd]
  · rw [step_of_isTurn (.inr he)]
    exact engineTurn_of_offer hp ho hd

/-- Settles O12: the step is that of the offered descriptor (`engineTurn_of_idle_cons`), and neither verdict has one. -/
theorem illegalOfferIsRefused : Obligations.IllegalOfferIsRefused := by
  refine ⟨fun s d rest hp ho he => ?_, fun _ _ => exec_outOfRange⟩
  rw [step_of_env_nil he, engineTurn_of_idle_cons hp ho]
  exact ⟨fun hd => runDescriptor_reserved hd _, fun hd => runDescriptor_outOfRange hd _⟩

/-- Settles O11: ACCEPT loads by family (`loadOf`), and outside IDLE neither a turn (`engineTurn_offers_of_ne_idle`) nor an event takes
an offer. -/
theorem acceptLatchesTheDescriptorAndLoadsR : Obligations.AcceptLatchesTheDescriptorAndLoadsR := by
  refine ⟨fun i s hp hw => ?_, fun s t hp h => ?_⟩
  · rw [exec_accept hp hw]
    cases i <;> rfl
  · rcases step_next_cases h with ⟨rest, -, h⟩ | ⟨rest, -, rfl⟩ | ⟨rest, a, b, -, rfl⟩ | ⟨rest, a, -, rfl⟩
    · exact engineTurn_offers_of_ne_idle (s := s.setEnv rest) hp h
    all_goals rfl

/-! ### BYTE and FINAL (R84, R86) -/

/-- The low `n` bits of a word, as a number. -/
theorem zext_trunc_eq_ofNat (n : Nat) (r : Word) : zext (trunc n r) = BitVec.ofNat 32 (r.toNat % 2 ^ n) := by
  apply BitVec.eq_of_toNat_eq
  simp only [BitVec.toNat_setWidth, BitVec.toNat_ofNat]

/-- `sum_step_W` on numbers: a byte fits the width, so only the sum is reduced (R100). -/
theorem zext_sumStep_eq_ofNat {n : Nat} (h8 : 8 ≤ n) (h32 : n ≤ 32) (r : Word) (b : Byte) :
    zext (sumStep (trunc n r) b) = BitVec.ofNat 32 ((r.toNat % 2 ^ n + b.toNat) % 2 ^ n) := by
  have hb : (b.setWidth n).toNat = b.toNat := BitVec.toNat_setWidth_of_le h8
  have hsum : (sumStep (trunc n r) b).toNat = (r.toNat % 2 ^ n + b.toNat) % 2 ^ n := by
    rw [sumStep, BitVec.toNat_add, hb, BitVec.toNat_setWidth]
  rw [← hsum, ← zext_toNat h32, BitVec.ofNat_toNat, BitVec.setWidth_eq]

/-- Settles O13: BYTE (`exec_byte`) updates `R` by family; a checksum's update is the sum modulo `2^W` (`zext_sumStep_eq_ofNat`). -/
theorem byteStepConsumesOneByte : Obligations.ByteStepConsumesOneByte := by
  intro i s b hp hi hb
  rw [exec_byte hp hi hb]
  refine congrArg (fun r => Host.Outcome.next (s.consume (byteAddress i s.idx.toNat) r)) ?_
  cases i with
  | checksum8 | checksum16 | checksum32 => exact zext_sumStep_eq_ofNat (by decide) (by decide) s.r b
  | _ => rfl

/-- Settles O17: FINAL (`exec_final`) computes by family; a checksum keeps the low W bits of `R` (`zext_trunc_eq_ofNat`). -/
theorem finalPutsTheResultIntoRes : Obligations.FinalPutsTheResultIntoRes := by
  intro i s hp hi
  rw [exec_final hp hi]
  refine congrArg (fun res => Host.Outcome.next (s.final res)) ?_
  cases i with
  | checksum8 | checksum16 | checksum32 => exact zext_trunc_eq_ofNat _ s.r
  | _ => rfl

/-- Settles O27, for each of the four things that the step of a command can be (`exec_next_cases`). -/
theorem commandStepFrame : Obligations.CommandStepFrame := by
  intro i s t h
  rcases exec_next_cases h with ⟨hp, -, rfl⟩ | ⟨hp, hi, b, -, rfl⟩ | ⟨hp, hi, rfl⟩ | ⟨hp, rfl⟩
  · simp [hp]
  · simp [hp, hi]
  · simp [hp, hi]
  · simp [hp]

/-! ### TAKE (R88) -/

/-- In DONE with the host ready, a turn is TAKE. -/
theorem engineTurn_of_take {s : State} {k : Nat} (hp : s.phase = .done) (ht : s.takes = k + 1) :
    engineTurn s = .next (s.setTakes k).deliver := by
  simp [engineTurn, hp, doneTurn, ht]

/-- A state that a step leaves as it is stays so. -/
theorem runFor_of_step_self {s : State} (h : step s = .next s) (n : Nat) : runFor n s = .next s := by
  induction n with
  | zero => rfl
  | succ n ih => rw [runFor_succ_of_next h, ih]

/-- Settles O19: with the host ready the turn is TAKE (`engineTurn_of_take`); otherwise the engine stands (`engineTurn_of_done`). -/
theorem takeDeliversResAndDoneWaitsForIt : Obligations.TakeDeliversResAndDoneWaitsForIt := by
  refine ⟨fun s k hp ht he => ?_, fun s n hp ht he => ?_⟩
  · exact (step_of_env_nil he).trans (engineTurn_of_take hp ht)
  · exact runFor_of_step_self ((step_of_env_nil he).trans (engineTurn_of_done hp ht)) n

/-! ### Progress (R87, R140) -/

section
variable {s : State}

/-- In RUN the invariant says that a command is latched whose index is in bounds. -/
theorem Inv.latched_of_run (h : Inv s) (hp : s.phase = .run) : ∃ i, decode s.cmd = .command i ∧ s.idx.toNat ≤ effLen i := by
  obtain ⟨-, hq | ⟨i, hd, hl⟩⟩ := h
  · simp [hp] at hq
  · simp only [latchInv, hp] at hl
    exact ⟨i, hd, hl.right⟩

/-- A turn of the engine answers: IDLE accepts a legal offer or stands, RUN reads a readable byte or finishes, DONE delivers or
stands. -/
theorem engineTurn_answers (hs : Inv s) (hoffers : offersLegal s) (hreadable : nextByteReadable s) :
    ∃ t, engineTurn s = .next t := by
  cases hp : s.phase with
  | idle =>
    cases ho : s.offers with
    | nil => exact ⟨s, by simp [engineTurn, hp, idleTurn, ho]⟩
    | cons d rest =>
      obtain ⟨i, hd⟩ := hoffers d (by simp [ho])
      obtain ⟨-, -, hw⟩ := decode_command hd
      exact ⟨_, (engineTurn_of_offer hp ho hd).trans (exec_accept hp hw)⟩
  | run =>
    obtain ⟨i, hd, hle⟩ := hs.latched_of_run hp
    rw [engineTurn_of_run hp hd]
    rcases Nat.lt_or_eq_of_le hle with hlt | heq
    · obtain ⟨b, hb⟩ := Option.isSome_iff_exists.mp (hreadable i hp hd hlt)
      exact ⟨_, exec_byte hp hlt hb⟩
    · exact ⟨_, exec_final hp heq⟩
  | done =>
    cases ht : s.takes with
    | zero => exact ⟨s, engineTurn_of_done hp ht⟩
    | succ k => exact ⟨_, engineTurn_of_take hp ht⟩

end

/-- Settles O32: a turn of the engine answers (`engineTurn_answers`), listed or not, and the three other events always do. -/
theorem noStopWhileTheHostKeepsItsDuties : Obligations.NoStopWhileTheHostKeepsItsDuties := by
  intro s hs hoffers hreadable
  cases he : s.env with
  | nil =>
    rw [step_of_env_nil he]
    exact engineTurn_answers hs hoffers hreadable
  | cons e later =>
    rw [step_of_env_cons he]
    cases e with
    | turn => exact engineTurn_answers (hs.setEnv later) hoffers hreadable
    | reset | store | withdraw => exact ⟨_, rfl⟩

/-! ### A whole command (R91, R92) -/

/-- With no event listed, a command underway comes to DONE by its turns alone, and up to there neither the data space nor what the host
takes and has taken is touched. -/
theorem Underway.runFor_finished {i : Instr} {d : List Byte} {rest : List Desc} {reads : List Nat} {left : Nat} {s : State}
    (hw : i.wellFormed = true) (hm : bufferHolds i s.mem d) (he : s.env = []) (h : Underway i d rest reads left s) :
    ∃ t, runFor left s = .next t ∧ Underway i d rest reads 0 t ∧ t.env = [] ∧ t.mem = s.mem ∧
      t.takes = s.takes ∧ t.taken = s.taken := by
  induction left generalizing s with
  | zero => exact ⟨s, rfl, h, he, rfl, rfl, rfl⟩
  | succ left ih =>
    obtain ⟨u, hu, hnext⟩ := h.engineTurn_next hw hm
    have hmem : u.mem = s.mem := engineTurn_mem hu
    have ⟨htakes, htaken⟩ := engineTurn_taken_of_ne_done h.phase_ne_done hu
    rw [runFor_succ_of_next ((step_of_env_nil he).trans hu), ← hmem, ← htakes, ← htaken]
    exact ih (hmem ▸ hm) ((engineTurn_env hu).trans he) hnext

/-- Settles O33: `n_eff + 2` turns bring the offered command to DONE (`Underway.runFor_finished`), and one more is TAKE. -/
theorem wholeCommandDeliversItsResult : Obligations.WholeCommandDeliversItsResult := by
  intro i d s rest k hw hphase henv hoffers htakes hbuffer
  have hstart : Underway i d rest s.reads (effLen i + 2) s := length_of_bufferHolds hbuffer ▸ .offered hphase hoffers rfl
  obtain ⟨t, hrun, hu, henv', hmem, htakes', htaken⟩ := hstart.runFor_finished hw hbuffer henv
  cases hu with
  | finished hdone hrest hres hreads =>
    have htake : step t = .next (t.setTakes k).deliver :=
      (step_of_env_nil henv').trans (engineTurn_of_take hdone (htakes'.trans htakes))
    refine ⟨_, (runFor_add_of_next hrun 1).trans (runFor_succ_of_next htake 0), rfl, ?_, hreads, hrest, rfl, hmem⟩
    rw [State.deliver_taken, State.setTakes_taken, State.setTakes_res, htaken, hres]

end Sys2Proof.Machine

/-! ## The checksum (R100 to R106)

The model adds byte by byte into a `W`-bit accumulator. The sum can be taken in the natural numbers instead and reduced once
(`checksumOf_eq_ofNat_sum`), and there R105's properties are those of a sum. -/

namespace Sys2Proof.Machine

/-- `sum_step` adds the byte as a number, at any width: what does not fit is dropped (R100). -/
theorem sumStep_eq_add_ofNat {n : Nat} (acc : BitVec n) (b : Byte) : sumStep acc b = acc + BitVec.ofNat n b.toNat := by
  rw [sumStep, BitVec.ofNat_toNat]

/-- The accumulator after the bytes `d`. -/
theorem foldl_sumStep {n : Nat} (acc : BitVec n) (d : List Byte) :
    d.foldl sumStep acc = acc + BitVec.ofNat n (d.map BitVec.toNat).sum := by
  induction d generalizing acc with
  | nil => exact (BitVec.add_zero acc).symm
  | cons b d ih =>
    rw [List.foldl_cons, ih, sumStep_eq_add_ofNat, List.map_cons, List.sum_cons, BitVec.ofNat_add, BitVec.add_assoc]

theorem checksumOf_eq_ofNat_sum (n : Nat) (d : List Byte) : checksumOf n d = BitVec.ofNat n (d.map BitVec.toNat).sum :=
  (foldl_sumStep 0 d).trans (BitVec.zero_add _)

/-- The low part of a checksum is the checksum of that width. -/
theorem setWidth_checksumOf {m n : Nat} (h : m ≤ n) (d : List Byte) : (checksumOf n d).setWidth m = checksumOf m d := by
  rw [checksumOf_eq_ofNat_sum, checksumOf_eq_ofNat_sum, BitVec.setWidth_ofNat_of_le h]

/-- Settles O36: the accumulator holds the sum in the natural numbers, reduced (`checksumOf_eq_ofNat_sum`). -/
theorem checksumIsTheSumModulo : Obligations.ChecksumIsTheSumModulo := by
  intro w d
  rw [checksumOf_eq_ofNat_sum, BitVec.toNat_ofNat]

/-- Settles O37: the bytes of a concatenation sum to the sum of both sums, and reduction keeps addition. -/
theorem checksumOfConcatenation : Obligations.ChecksumOfConcatenation := by
  intro w d e
  simp only [checksumOf_eq_ofNat_sum, List.map_append, List.sum_append, BitVec.ofNat_add]

/-- Settles O38: a sum of numbers does not depend on their order. -/
theorem checksumIgnoresByteOrder : Obligations.ChecksumIgnoresByteOrder := by
  intro w d e h
  rw [checksumOf_eq_ofNat_sum, checksumOf_eq_ofNat_sum, (h.map BitVec.toNat).sum_eq]

/-- Settles O39, both times from a width to a larger one (`setWidth_checksumOf`). -/
theorem narrowChecksumIsTheLowPart : Obligations.NarrowChecksumIsTheLowPart := fun d =>
  ⟨(setWidth_checksumOf (by decide) d).symm, (setWidth_checksumOf (by decide) d).symm⟩

end Sys2Proof.Machine

/-! ## The reflection (R110 to R115)

A reflected value is known by its bits (`getLsbD_reflect`); each law of R115 compares both sides bit by bit. -/

namespace Sys2Proof.Machine

/-- No width exceeds that of a word (R6, R63). -/
theorem width_bits_le (w : Width) : w.bits ≤ 32 := by cases w <;> decide

/-- R110 read from the value to its reflection; `getLsbD_reflect` reads it the other way. -/
theorem getLsbD_reflect_mirror {n : Nat} (v : BitVec n) {i : Nat} (h : i < n) :
    (reflect v).getLsbD (n - 1 - i) = v.getLsbD i := by
  rw [getLsbD_reflect v _ (by omega)]
  congr 1
  omega

@[simp] theorem reflect_reflect {n : Nat} (v : BitVec n) : reflect (reflect v) = v :=
  BitVec.eq_of_getLsbD_eq fun i h => by rw [getLsbD_reflect _ i h, getLsbD_reflect_mirror v h]

/-- Reflection moves every bit to a place of its own, so XOR may be taken before or after it (R115). -/
theorem reflect_xor {n : Nat} (a b : BitVec n) : reflect (a ^^^ b) = reflect a ^^^ reflect b :=
  BitVec.eq_of_getLsbD_eq fun i h => by simp only [BitVec.getLsbD_xor, getLsbD_reflect _ i h]

@[simp] theorem reflect_zero {n : Nat} : reflect 0#n = 0#n :=
  BitVec.eq_of_getLsbD_eq fun i h => by simp [getLsbD_reflect _ i h]

@[simp] theorem reflect_allOnes {n : Nat} : reflect (BitVec.allOnes n) = BitVec.allOnes n :=
  BitVec.eq_of_getLsbD_eq fun i h => by
    have hmirror : n - 1 - i < n := by omega
    simp [getLsbD_reflect _ i h, h, hmirror]

theorem reflect_bijective {n : Nat} : Function.Bijective (reflect (n := n)) :=
  Function.Involutive.bijective reflect_reflect

/-- Two reflections in a row, each on the low `n` bits of a word (R115, C5). -/
theorem zext_reflect_trunc_twice {n : Nat} (hn : n ≤ 32) (v : Word) :
    zext (reflect (trunc n (zext (reflect (trunc n v))))) = zext (trunc n v) := by
  rw [trunc_zext hn, reflect_reflect]

/-- Settles O40: mirroring a position twice gives it back (`getLsbD_reflect_mirror`). -/
theorem reflectMovesBitToMirrorPosition : Obligations.ReflectMovesBitToMirrorPosition := fun _ v _ h =>
  getLsbD_reflect_mirror v h

/-- Settles O41: reflection is its own inverse (`reflect_reflect`), also through a word, and works on each bit alone. -/
theorem reflectIsAnXorLinearInvolution : Obligations.ReflectIsAnXorLinearInvolution := fun w =>
  ⟨zext_reflect_trunc_twice (width_bits_le w), reflect_bijective, reflect_xor, reflect_zero, reflect_allOnes⟩

end Sys2Proof.Machine

/-! ## The CRC (R120 to R133)

The single-bit update is linear over XOR, and so are the iterated update and the byte step. Two facts say what the eight updates of a
byte step do without meeting the polynomial's value: a register whose top byte is zero is shifted (`crcBits_of_lt`), and a mixed-in
byte that equals the register's top byte makes it zero (`crcByte_of_own_top_byte`). -/

namespace Sys2Proof.Machine

/-- Every width has room for a byte, so the byte-mixing shift of R123 does not go below 0. -/
theorem eight_le_width_bits (w : Width) : 8 ≤ w.bits := by cases w <;> decide

/-! ### The single-bit update (R122) -/

section
variable {n : Nat}

theorem crcBit_of_msb {r : BitVec n} (h : r.msb = true) (poly : BitVec n) : crcBit r poly = r <<< 1 ^^^ poly := by
  simp [crcBit, h]

theorem crcBit_of_not_msb {r : BitVec n} (h : r.msb = false) (poly : BitVec n) : crcBit r poly = r <<< 1 := by
  simp [crcBit, h]

/-- A left shift on numbers; the bits past the width are lost (R9). -/
theorem shiftLeft_eq_ofNat (r : BitVec n) (k : Nat) : r <<< k = BitVec.ofNat n (2 ^ k * r.toNat) := by
  apply BitVec.eq_of_toNat_eq
  rw [BitVec.toNat_shiftLeft, BitVec.toNat_ofNat, Nat.shiftLeft_eq, Nat.mul_comm]

/-- The shift clears bit 0, so it is the polynomial's if the discarded bit was 1 (R122). -/
theorem getLsbD_zero_crcBit (r poly : BitVec n) :
    (crcBit r poly).getLsbD 0 = (r.getLsbD (n - 1) && poly.getLsbD 0) := by
  rw [← BitVec.msb_eq_getLsbD_last]
  cases h : r.msb with
  | true => simp [crcBit_of_msb h]
  | false => simp [crcBit_of_not_msb h]

/-- The update as one XOR: of the shifted register with the polynomial or with 0. -/
theorem crcBit_eq_xor (r poly : BitVec n) : crcBit r poly = r <<< 1 ^^^ (if r.msb then poly else 0#n) := by
  cases h : r.msb with
  | true => exact crcBit_of_msb h poly
  | false => simp [crcBit_of_not_msb h]

/-- The tested bits are XORed with the registers, and a polynomial mixed in twice cancels. -/
theorem crcBit_xor (r q poly : BitVec n) : crcBit (r ^^^ q) poly = crcBit r poly ^^^ crcBit q poly := by
  have hmixed : (if r.msb ^^ q.msb then poly else 0#n) = (if r.msb then poly else 0#n) ^^^ (if q.msb then poly else 0#n) := by
    cases r.msb <;> cases q.msb <;> simp
  simp only [crcBit_eq_xor, BitVec.msb_xor, BitVec.shiftLeft_xor_distrib, hmixed]
  ac_rfl

theorem crcBits_xor (poly : BitVec n) (k : Nat) (r q : BitVec n) :
    crcBits poly k (r ^^^ q) = crcBits poly k r ^^^ crcBits poly k q := by
  induction k generalizing r q with
  | zero => rfl
  | succ k ih => rw [crcBits_succ, crcBit_xor, ih, ← crcBits_succ, ← crcBits_succ]

theorem crcBits_eq_iterate (poly : BitVec n) (k : Nat) (r : BitVec n) :
    crcBits poly k r = (fun x => crcBit x poly)^[k] r := by
  induction k generalizing r with
  | zero => rfl
  | succ k ih => exact ih (crcBit r poly)

/-- Without a polynomial an update only shifts. -/
theorem crcBits_zero_poly (k : Nat) (r : BitVec n) : crcBits 0 k r = r <<< k := by
  induction k with
  | zero => simp
  | succ k ih =>
    have hbit (x : BitVec n) : crcBit x 0 = x <<< 1 := by simp [crcBit_eq_xor]
    rw [crcBits_succ_last, ih, hbit, ← BitVec.shiftLeft_add]

end

/-! ### The byte step (R121) -/

/-- A byte in bits W-1 down to W-8 of a register. -/
def topByte (n : Nat) (b : Byte) : BitVec n := b.setWidth n <<< (n - 8)

section
variable {n : Nat}

theorem crcByte_eq_crcBits (r poly : BitVec n) (b : Byte) (refin : Bool) :
    crcByte r b refin poly = crcBits poly 8 (r ^^^ topByte n (if refin then reflect b else b)) := rfl

@[simp] theorem topByte_zero : topByte n 0#8 = 0#n := by simp [topByte]

theorem topByte_xor (b c : Byte) : topByte n (b ^^^ c) = topByte n b ^^^ topByte n c := by
  simp only [topByte, BitVec.setWidth_xor, BitVec.shiftLeft_xor_distrib]

theorem topByte_eq_ofNat (b : Byte) : topByte n b = BitVec.ofNat n (b.toNat * 2 ^ (n - 8)) := by
  apply BitVec.eq_of_toNat_eq
  simp [topByte, Nat.shiftLeft_eq, Nat.mod_mul_mod]

/-- The mixed-in byte fits the register (R121). -/
theorem byte_mul_two_pow_lt (hn : 8 ≤ n) (b : Byte) : b.toNat * 2 ^ (n - 8) < 2 ^ n := by
  have hsplit : 2 ^ n = 2 ^ 8 * 2 ^ (n - 8) := by rw [← Nat.pow_add, Nat.add_sub_of_le hn]
  rw [hsplit]
  exact Nat.mul_lt_mul_of_pos_right b.isLt (Nat.two_pow_pos _)

/-- The top byte is what a shift by 8 loses. -/
theorem topByte_shiftLeft_eight (hn : 8 ≤ n) (b : Byte) : topByte n b <<< 8 = 0#n := by
  rw [topByte, ← BitVec.shiftLeft_add, Nat.sub_add_cancel hn, BitVec.shiftLeft_eq_zero (Nat.le_refl n)]

/-- Bits W-1 down to W-8 of a register, mixed into it, leave the bits below. -/
theorem xor_own_top_byte_lt (hn : 8 ≤ n) (r : BitVec n) :
    (r ^^^ topByte n (r.extractLsb' (n - 8) 8)).toNat < 2 ^ (n - 8) := by
  apply Nat.lt_pow_two_of_testBit
  intro i hi
  rw [BitVec.testBit_toNat]
  by_cases h : i < n
  · have hlow : i - (n - 8) < 8 := by omega
    have hback : n - 8 + (i - (n - 8)) = i := by omega
    simp [topByte, h, hlow, hback, Nat.not_lt.mpr hi]
  · exact BitVec.getLsbD_of_ge _ i (Nat.not_lt.mp h)

/-- Feeding a register its own top byte shifts it by a byte, whatever the polynomial. -/
theorem crcByte_of_own_top_byte (hn : 8 ≤ n) (r poly : BitVec n) :
    crcByte r (r.extractLsb' (n - 8) 8) false poly = r <<< 8 := by
  rw [crcByte_eq_crcBits, if_neg Bool.false_ne_true, crcBits_of_lt poly _ hn (xor_own_top_byte_lt hn r),
    BitVec.shiftLeft_xor_distrib, topByte_shiftLeft_eight hn, BitVec.xor_zero]

theorem crcByte_xor (r q poly : BitVec n) (b c : Byte) (refin : Bool) :
    crcByte (r ^^^ q) (b ^^^ c) refin poly = crcByte r b refin poly ^^^ crcByte q c refin poly := by
  have hinput : (if refin then reflect (b ^^^ c) else b ^^^ c) =
      (if refin then reflect b else b) ^^^ (if refin then reflect c else c) := by
    cases refin with
    | true => exact reflect_xor b c
    | false => rfl
  simp only [crcByte_eq_crcBits, hinput, topByte_xor, crcBits_xor]
  ac_rfl

/-- A linear step takes a zero register and a zero byte to zero (R133 (b)). -/
@[simp] theorem crcByte_zero_zero (refin : Bool) (poly : BitVec n) : crcByte 0#n 0#8 refin poly = 0#n := by
  simpa using crcByte_xor 0#n 0#n poly 0#8 0#8 refin

/-- Seven updates bring the single bit of `0x01` to the top, and the eighth replaces it by the polynomial. -/
theorem crcByte_zero_one (hn : 8 ≤ n) (poly : BitVec n) : crcByte 0#n 1#8 false poly = poly := by
  have hsmall : (topByte n 1#8).toNat < 2 ^ (n - 7) := by
    rw [topByte_eq_ofNat, BitVec.toNat_ofNat]
    refine Nat.lt_of_le_of_lt (Nat.mod_le _ _) ?_
    simpa using Nat.pow_lt_pow_right (a := 2) (by decide) (show n - 8 < n - 7 by omega)
  have hseven : crcBits poly 7 (topByte n 1#8) = topByte n 1#8 <<< 7 := crcBits_of_lt poly _ (by omega) hsmall
  have hmsb : (topByte n 1#8 <<< 7).msb = true := by
    have hpos : 0 < n := by omega
    have hshift : n - 8 + 7 = n - 1 := by omega
    rw [topByte, ← BitVec.shiftLeft_add, hshift, BitVec.msb_eq_getLsbD_last]
    simp [hpos]
  rw [crcByte_eq_crcBits, if_neg Bool.false_ne_true, BitVec.zero_xor, crcBits_succ_last, hseven, crcBit_of_msb hmsb,
    ← BitVec.shiftLeft_add, topByte_shiftLeft_eight hn, BitVec.zero_xor]

end

/-! ### The register over a list of bytes (R125) -/

section
variable {n : Nat}

theorem crcRegister_cons (p : CrcParams n) (r : BitVec n) (b : Byte) (d : List Byte) :
    crcRegister p r (b :: d) = crcRegister p (crcByte r b p.refin p.poly) d := rfl

theorem crcRegister_append (p : CrcParams n) (r : BitVec n) (d e : List Byte) :
    crcRegister p r (d ++ e) = crcRegister p (crcRegister p r d) e := List.foldl_append

theorem crcRegister_replicate_zero (p : CrcParams n) (k : Nat) : crcRegister p 0#n (List.replicate k 0#8) = 0#n := by
  induction k with
  | zero => rfl
  | succ k ih => rw [List.replicate_succ, crcRegister_cons, crcByte_zero_zero, ih]

/-- With the final steps off, the CRC is the register. -/
theorem crcOf_of_no_final {p : CrcParams n} (hout : p.refout = false) (hmask : p.xorout = 0) (d : List Byte) :
    crcOf p d = crcRegister p p.init d := by
  simp [crcOf, crcFinal, hout, hmask]

/-- The top byte of a register shifted by `k` bytes. -/
theorem extractLsb'_shiftLeft_top (r : BitVec n) {k : Nat} (hk : 8 * k + 8 ≤ n) :
    (r <<< (8 * k)).extractLsb' (n - 8) 8 = r.extractLsb' (n - 8 - 8 * k) 8 := by
  apply BitVec.eq_of_getLsbD_eq
  intro i hi
  have hlt : n - 8 + i < n := by omega
  have hge : ¬ n - 8 + i < 8 * k := by omega
  have hpos : n - 8 + i - 8 * k = n - 8 - 8 * k + i := by omega
  simp only [BitVec.getLsbD_extractLsb', BitVec.getLsbD_shiftLeft, hi, hlt, hge, hpos, decide_true, decide_false, Bool.not_false,
    Bool.true_and]

/-- The first `k` bytes of a register, most significant first, shift it out from the top. -/
theorem crcRegister_own_bytes {p : CrcParams n} (hin : p.refin = false) (r : BitVec n) {k : Nat} (hk : 8 * k ≤ n) :
    crcRegister p r ((List.range k).map fun j => r.extractLsb' (n - 8 - 8 * j) 8) = r <<< (8 * k) := by
  induction k with
  | zero => exact (BitVec.shiftLeft_zero r).symm
  | succ k ih =>
    rw [List.range_succ, List.map_append, crcRegister_append, ih (by omega), List.map_singleton,
      ← extractLsb'_shiftLeft_top r hk, crcRegister_cons, hin, crcByte_of_own_top_byte (by omega), ← BitVec.shiftLeft_add]
    rfl

end

/-! ### The obligations -/

/-- Settles O42: the tested bit is the top one (`BitVec.msb_eq_decide`), and the shift doubles (`shiftLeft_eq_ofNat`). -/
theorem crcBitShiftsAndMixes : Obligations.CrcBitShiftsAndMixes := by
  intro w r poly
  refine ⟨?_, getLsbD_zero_crcBit r poly⟩
  have hdouble : r <<< 1 = BitVec.ofNat w.bits (2 * r.toNat) := shiftLeft_eq_ofNat r 1
  simp only [crcBit, hdouble, BitVec.msb_eq_decide, decide_eq_true_eq]

/-- Settles O43: the byte is mixed in as a number that fits (`topByte_eq_ofNat`), and the updates are iterated. -/
theorem crcByteMixesThenUpdatesEightTimes : Obligations.CrcByteMixesThenUpdatesEightTimes := by
  intro w r poly b0 refin b
  refine ⟨byte_mul_two_pow_lt (eight_le_width_bits w) b, ?_⟩
  rw [crcByte_eq_crcBits, crcBits_eq_iterate, topByte_eq_ofNat]

/-- With REFOUT the mask is reflected with the register (R124). -/
theorem crcFinal_true {n : Nat} (r xorout : BitVec n) : crcFinal r xorout true = reflect r ^^^ reflect xorout :=
  reflect_xor r xorout

/-- Settles O44. -/
theorem crcFinalReflectsTheMask : Obligations.CrcFinalReflectsTheMask := fun _ r xorout =>
  ⟨rfl, rfl, crcFinal_true r xorout⟩

/-- Settles O45: no byte is taken, so only the final steps are left. -/
theorem crcOfNoBytes : Obligations.CrcOfNoBytes := fun _ _ => rfl

/-- Settles O46: with REFOUT both orders XOR into the reflected register, the engine's with the reflected mask (`crcFinal_true`). -/
theorem catalogueOrderAgreesForPalindromicMasks : Obligations.CatalogueOrderAgreesForPalindromicMasks := by
  intro w r xorout refout
  refine ⟨?_, by rw [crcFinal_true, reflect_reflect]⟩
  cases refout with
  | true => simp [crcFinal_true, BitVec.xor_right_inj]
  | false => simp [crcFinal]

/-- Settles O47. -/
theorem crcByteIsXorLinear : Obligations.CrcByteIsXorLinear := fun _ => crcByte_xor

/-- Settles O48: the CRC is one byte step on a zero register (`crcByte_zero_one`). -/
theorem crcOfOneIsThePolynomial : Obligations.CrcOfOneIsThePolynomial := fun w poly =>
  (crcOf_of_no_final rfl rfl _).trans (crcByte_zero_one (eight_le_width_bits w) poly)

/-- Settles O49: zero bytes keep a zero register (`crcRegister_replicate_zero`). -/
theorem leadingZeroBytesLeaveNoTrace : Obligations.LeadingZeroBytesLeaveNoTrace := by
  intro w p k d hinit
  rw [crcOf, crcOf, crcRegister_append, hinit]
  exact congrArg (fun r => crcFinal (crcRegister p r d) p.xorout p.refout) (crcRegister_replicate_zero p k)

/-- Settles O50: the eight updates only shift (`crcBits_zero_poly`), which loses the top byte and with it the new one. -/
theorem zeroPolynomialShiftsTheRegisterOut : Obligations.ZeroPolynomialShiftsTheRegisterOut := by
  intro w r b refin
  rw [crcByte_eq_crcBits, crcBits_zero_poly, BitVec.shiftLeft_xor_distrib, topByte_shiftLeft_eight (eight_le_width_bits w),
    BitVec.xor_zero, shiftLeft_eq_ofNat]

/-- Settles O51: the register's own bytes shift it out (`crcRegister_own_bytes`), and W / 8 of them are all of it. -/
theorem appendedCheckValueLeavesZero : Obligations.AppendedCheckValueLeavesZero := by
  intro w poly init d p
  have hbytes : 8 * (w.bits / 8) = w.bits := by cases w <;> rfl
  simp only [crcOf_of_no_final (p := p) rfl rfl, crcRegister_append]
  rw [crcRegister_own_bytes (p := p) rfl _ (Nat.le_of_eq hbytes), hbytes, BitVec.shiftLeft_eq_zero (Nat.le_refl _)]
  rfl

end Sys2Proof.Machine

/-! ## Several engines (R149)

A turn is a `List.modify` at its own place, whatever the engine there does, a stop included, and a turn of an absent engine modifies
nothing. Where no event of an environment is listed the data space stays too, so turns at different places commute. -/

namespace Sys2Proof.Machine

/-- An engine after a turn of its own over the data space `m`. -/
def Engine.afterTurn (m : Memory) (e : Engine) : Engine := (engineStep e m).1

/-! ### What one turn of a system does -/

section
variable {y : System} {k : Nat} {rest : List Nat} (ht : y.turns = k :: rest)
include ht

theorem systemStep_turns : (systemStep y).turns = rest := by
  cases he : y.engines[k]? with
  | none => rw [systemStep_of_no_engine ht he]
  | some e => rw [systemStep_of_engine ht he]

theorem systemStep_engines : (systemStep y).engines = y.engines.modify k (Engine.afterTurn y.mem) := by
  cases he : y.engines[k]? with
  | none => rw [systemStep_of_no_engine ht he, List.modify_eq_self (List.getElem?_eq_none_iff.mp he)]
  | some e =>
    rw [systemStep_of_engine ht he, List.modify_eq_set_getElem?, he]
    rfl

theorem systemStep_engines_of_ne {j : Nat} (hj : j ≠ k) : (systemStep y).engines[j]? = y.engines[j]? := by
  rw [systemStep_engines ht, List.getElem?_modify_ne _ _ hj.symm]

theorem systemStep_engines_self {e : Engine} (he : y.engines[k]? = some e) :
    (systemStep y).engines[k]? = some (engineStep e y.mem).1 := by
  rw [systemStep_engines ht, List.getElem?_modify_eq, he]
  rfl

theorem systemStep_mem {e : Engine} (he : y.engines[k]? = some e) : (systemStep y).mem = (engineStep e y.mem).2 := by
  rw [systemStep_of_engine ht he]

/-- The turn of an engine without a listed event leaves the data space as it is. -/
theorem systemStep_mem_of_env_nil (hq : ∀ e, y.engines[k]? = some e → e.env = []) : (systemStep y).mem = y.mem := by
  cases he : y.engines[k]? with
  | none => rw [systemStep_of_no_engine ht he]
  | some e => exact (systemStep_mem ht he).trans (engineStep_of_env_nil (hq e he) y.mem).1

/-- Where no engine has a listed event, none has one after a turn. -/
theorem systemStep_env_nil (hq : ∀ f ∈ y.engines, f.env = []) : ∀ f ∈ (systemStep y).engines, f.env = [] := by
  cases he : y.engines[k]? with
  | none => rwa [systemStep_of_no_engine ht he]
  | some e =>
    rw [systemStep_of_engine ht he]
    intro f hf
    rcases List.mem_or_eq_of_mem_set hf with hold | rfl
    · exact hq f hold
    · exact (engineStep_of_env_nil (hq e (List.mem_of_getElem? he)) y.mem).2

end

/-- Two turns at different places, of engines without a listed event: each engine has its own turn over the data space of the start. -/
theorem systemStep_systemStep_of_env_nil {y : System} {j k : Nat} {rest : List Nat} (hjk : j ≠ k) (ht : y.turns = j :: k :: rest)
    (hj : ∀ e, y.engines[j]? = some e → e.env = []) (hk : ∀ e, y.engines[k]? = some e → e.env = []) :
    systemStep (systemStep y) =
      { engines := (y.engines.modify j (Engine.afterTurn y.mem)).modify k (Engine.afterTurn y.mem), mem := y.mem, turns := rest } := by
  have ht' : (systemStep y).turns = k :: rest := systemStep_turns ht
  have hk' : ∀ e, (systemStep y).engines[k]? = some e → e.env = [] := by rwa [systemStep_engines_of_ne ht hjk.symm]
  have hmem : (systemStep y).mem = y.mem := systemStep_mem_of_env_nil ht hj
  rw [← systemStep_engines ht, System.mk.injEq]
  refine ⟨?_, (systemStep_mem_of_env_nil ht' hk').trans hmem, systemStep_turns ht'⟩
  rw [systemStep_engines ht', hmem]

/-! ### The obligations -/

/-- Settles O53. -/
theorem enginesShareNothingButMemory : Obligations.EnginesShareNothingButMemory := by
  intro y k rest ht
  refine ⟨by rw [systemStep_engines ht, List.length_modify], systemStep_turns ht, fun j => systemStep_engines_of_ne ht, ?_, ?_⟩
  · intro e x s he hw hs
    rw [systemStep_engines_self ht he, systemStep_mem ht he, engineStep_of_next hw hs]
    exact ⟨rfl, rfl⟩
  · intro he
    rw [systemStep_of_no_engine ht he]
    exact ⟨rfl, rfl⟩

/-- Settles O54: both orders modify the same two places, and modifications at different places commute. -/
theorem enginesCommute : Obligations.EnginesCommute := by
  intro y j k hjk hj hk
  rw [systemStep_systemStep_of_env_nil (y := { y with turns := [j, k] }) hjk rfl hj hk,
    systemStep_systemStep_of_env_nil (y := { y with turns := [k, j] }) hjk.symm rfl hk hj, List.modify_modify_ne _ _ _ hjk]

/-- Settles O55. -/
theorem stopOfOneEngineTouchesNoOther : Obligations.StopOfOneEngineTouchesNoOther := by
  intro y k rest e x ht he hw
  refine ⟨fun f hf => ⟨e.stop x (.fault f), ?_, rfl⟩, fun f hf => ⟨e.stop x (.refused f), ?_, rfl⟩, fun hno =>
    ⟨?_, systemStep_turns ht, fun j => systemStep_engines_of_ne ht⟩⟩
  · rw [systemStep_engines_self ht he, engineStep_of_fault hw hf]
  · rw [systemStep_engines_self ht he, engineStep_of_refused hw hf]
  · rw [systemStep_mem ht he]
    cases h : step (e.over x y.mem) with
    | next s => exact absurd h (hno s)
    | fault f => rw [engineStep_of_fault hw h]
    | refused f => rw [engineStep_of_refused hw h]

/-- Settles O57, by induction on the turns: a turn of engine `j` is one of its steps alone, any other leaves it, and after either no
event is listed and the data space is the same. -/
theorem everyEngineRunsAsIfAlone : Obligations.EveryEngineRunsAsIfAlone := by
  intro y j e hq he
  induction ht : y.turns generalizing y e with
  | nil => exact ⟨he, rfl⟩
  | cons k rest ih =>
    have hmem : (systemStep y).mem = y.mem :=
      systemStep_mem_of_env_nil ht fun f hf => hq f (List.mem_of_getElem? hf)
    rw [List.length_cons, Function.iterate_succ_apply, ← hmem]
    by_cases hk : k = j
    · subst hk
      rw [List.count_cons_self, Function.iterate_succ_apply]
      exact ih _ _ (systemStep_env_nil ht hq) (hmem ▸ systemStep_engines_self ht he) (systemStep_turns ht)
    · rw [List.count_cons_of_ne hk]
      exact ih _ _ (systemStep_env_nil ht hq) ((systemStep_engines_of_ne ht (Ne.symm hk)).trans he) (systemStep_turns ht)

end Sys2Proof.Machine

/-! ## RESET and the environment's hazards (R160 to R164)

A listed event is the whole step (`step_of_env_cons`): a RESET assigns the state elements of its engine, a write one byte of the data
space. At a stopped engine RESET is the one event that changes the engine. -/

namespace Sys2Proof.Machine

/-- Settles O20: the step is RESET in whatever phase it finds the engine, and what it draws are the free values. -/
theorem resetAbandonsTheCommand : Obligations.ResetAbandonsTheCommand :=
  fun s _ he =>
    ⟨Config.resetCmd s.draws, Config.resetR s.draws, Config.resetIdx s.draws, Config.resetRes s.draws, s.draws + 1,
      step_of_env_cons he⟩

/-- Settles O28: the write puts one byte into the data space (`Memory.put`). -/
theorem environmentStoreChangesOneByte : Obligations.EnvironmentStoreChangesOneByte :=
  fun s a b _ he =>
    ⟨s.mem.put a.toNat b, step_of_env_cons he, Memory.read_put_same s.mem a.toNat b, fun _ hx => Memory.read_put_other s.mem b hx⟩

/-- An event other than RESET happens to the data space alone, if to anything: the stopped engine stays as it is. -/
theorem stoppedEvent_fst_of_ne_reset {v : EnvEvent} (hv : v ≠ .reset) (e : Engine) (m : Memory) : (stoppedEvent v e m).1 = e := by
  cases v with
  | reset => exact absurd rfl hv
  | turn | store | withdraw => rfl

/-- A step of a stopped engine that is not its RESET only takes the event, if there is one, off the engine's list. -/
theorem engineStep_fst_of_stopped {e : Engine} {why : Stop} (hs : e.status = .stopped why) (hreset : e.env.head? ≠ some .reset)
    (m : Memory) : (engineStep e m).1 = { e with env := e.env.tail } := by
  cases he : e.env with
  | nil =>
    rw [engineStep_of_stopped_nil hs he, List.tail_nil, ← he]
  | cons v later =>
    have hv : v ≠ .reset := fun h => hreset (by rw [he, h, List.head?_cons])
    rw [engineStep_of_stopped_cons hs he, stoppedEvent_fst_of_ne_reset hv, List.tail_cons]

/-- Settles O56: without RESET only the event list moves (`engineStep_fst_of_stopped`), and RESET leaves the elements that any RESET
leaves (`Elements.afterReset`). -/
theorem onlyResetRevivesAStoppedEngine : Obligations.OnlyResetRevivesAStoppedEngine := by
  intro e m why hs
  constructor
  · intro hreset
    rw [engineStep_fst_of_stopped hs hreset]
    exact ⟨hs, rfl, rfl⟩
  · intro later he
    exact ⟨Elements.afterReset e.draws, e.draws + 1, engineStep_of_stopped_cons hs he, rfl⟩

end Sys2Proof.Machine

/-! ## The worked descriptors (spec/30_encoding.md section 5, spec/95_test_vectors.md section 6) -/

namespace Sys2Proof

/-- A descriptor known to be the encoding of a command that may be offered decodes to that command. -/
theorem decode_of_encode_eq {d : Desc} {i : Instr} (hd : encode i = d) (hw : i.wellFormed = true) : decode d = .command i := by
  rw [← hd, decode_encode hw]

/-- Settles O6: the three commands by their encodings (`decode_of_encode_eq`); V-DEC-8 has a buffer that ends above `2^32`
(`outOfRangeExactlyAsListed`), and V-DEC-6 has a bit of `CTRL[31:6]` set (`reservedExactlyAsListed`). -/
theorem workedDescriptorsDecode : Obligations.WorkedDescriptorsDecode :=
  ⟨decode_of_encode_eq (by decide) (by decide),
    decode_of_encode_eq (by decide) (by decide),
    decode_of_encode_eq (by decide) (by decide),
    (outOfRangeExactlyAsListed _).mpr ⟨mt (reservedExactlyAsListed _).mp (by decide), .inl (by decide), by decide⟩,
    (reservedExactlyAsListed _).mpr (.inl (by decide))⟩

end Sys2Proof
